-- ==== Sys2Proof/Word.lean ====
section
/-! DEFINITION. The word types of the machine and their plainest arithmetic (00_scope.md R8: every value is
unsigned; 10_state.md R41 gives the widths). -/

namespace Sys2Proof

/-- One byte of memory, one general register, one timer (10_state.md R20, R29, R34). -/
abbrev Byte := BitVec 8

/-- A 16-bit value: `pc`, `I`, a stack slot, an opcode (10_state.md R23, R27, R28; 30_encoding.md R70). -/
abbrev Word := BitVec 16

/-- The index of a general register, all sixteen values legal (10_state.md R20, R21). -/
abbrev Reg := Fin 16

/-- `V0`, the implicit offset of `JP V0, nnn` (10_state.md R21). -/
abbrev V0 : Reg := 0

/-- `VF`, the flag register (10_state.md R22). -/
abbrev VF : Reg := 15

/-- `zext_16` of a byte (00_scope.md R9). -/
abbrev zextByte (b : Byte) : Word := b.setWidth 16

end Sys2Proof
end

