-- ==== Sys2Proof/Syntax.lean ====
section
/-! DEFINITION. The instructions: one constructor per row of spec/opcode_table.json, in the order of 30_encoding.md
R75. `x` and `y` are register indexes, `kk` an 8-bit immediate, `nnn` a 12-bit immediate, `n` a count 0..15
(30_encoding.md R71, R73). -/

namespace Sys2Proof

inductive Instr where
  | sys (nnn : BitVec 12)              -- 0nnn SYS nnn
  | cls                                -- 00E0 CLS
  | ret                                -- 00EE RET
  | jp (nnn : BitVec 12)               -- 1nnn JP nnn
  | call (nnn : BitVec 12)             -- 2nnn CALL nnn
  | seImm (x : Reg) (kk : Byte)        -- 3xkk SE Vx, kk
  | sneImm (x : Reg) (kk : Byte)       -- 4xkk SNE Vx, kk
  | seReg (x y : Reg)                  -- 5xy0 SE Vx, Vy
  | ldImm (x : Reg) (kk : Byte)        -- 6xkk LD Vx, kk
  | addImm (x : Reg) (kk : Byte)       -- 7xkk ADD Vx, kk
  | ldReg (x y : Reg)                  -- 8xy0 LD Vx, Vy
  | orReg (x y : Reg)                  -- 8xy1 OR Vx, Vy
  | andReg (x y : Reg)                 -- 8xy2 AND Vx, Vy
  | xorReg (x y : Reg)                 -- 8xy3 XOR Vx, Vy
  | addReg (x y : Reg)                 -- 8xy4 ADD Vx, Vy
  | subReg (x y : Reg)                 -- 8xy5 SUB Vx, Vy
  | shrReg (x y : Reg)                 -- 8xy6 SHR Vx, Vy
  | subnReg (x y : Reg)                -- 8xy7 SUBN Vx, Vy
  | shlReg (x y : Reg)                 -- 8xyE SHL Vx, Vy
  | sneReg (x y : Reg)                 -- 9xy0 SNE Vx, Vy
  | ldI (nnn : BitVec 12)              -- Annn LD I, nnn
  | jpV0 (nnn : BitVec 12)             -- Bnnn JP V0, nnn
  | rnd (x : Reg) (kk : Byte)          -- Cxkk RND Vx, kk
  | drw (x y : Reg) (n : Fin 16)       -- Dxyn DRW Vx, Vy, n
  | skp (x : Reg)                      -- Ex9E SKP Vx
  | sknp (x : Reg)                     -- ExA1 SKNP Vx
  | ldVxDt (x : Reg)                   -- Fx07 LD Vx, DT
  | ldVxK (x : Reg)                    -- Fx0A LD Vx, K
  | ldDtVx (x : Reg)                   -- Fx15 LD DT, Vx
  | ldStVx (x : Reg)                   -- Fx18 LD ST, Vx
  | addI (x : Reg)                     -- Fx1E ADD I, Vx
  | ldF (x : Reg)                      -- Fx29 LD F, Vx
  | ldB (x : Reg)                      -- Fx33 LD B, Vx
  | ldMemVx (x : Reg)                  -- Fx55 LD [I], Vx
  | ldVxMem (x : Reg)                  -- Fx65 LD Vx, [I]
  deriving DecidableEq, Repr

end Sys2Proof
end

