-- ==== Sys2Proof/Decode.lean ====
section
/-! DEFINITION. `instruction_decoder`: fields (30_encoding.md R71), the decoder (R74, total, rejecting by name), the
encoder (R72, R75) and the host's entry to the decoder. -/

namespace Sys2Proof

/-- Why a byte sequence is no instruction. `unknownOpcode`: R74's `Unknown`, with the whole word (R76). `truncated`:
fewer than the two bytes every instruction has (R70); the fetch never hands the decoder so few. -/
inductive DecodeError where
  | unknownOpcode (op : Word)
  | truncated
  deriving DecidableEq, Repr

/-! ### Fields (R71) -/

/-- `hi`: the major family selector. -/
def fieldHi (op : Word) : BitVec 4 := op.extractLsb' 12 4
/-- `x`. -/
def fieldX (op : Word) : Reg := (op.extractLsb' 8 4).toFin
/-- `y`. -/
def fieldY (op : Word) : Reg := (op.extractLsb' 4 4).toFin
/-- `n`. -/
def fieldN (op : Word) : BitVec 4 := op.extractLsb' 0 4
/-- `kk`. -/
def fieldKk (op : Word) : Byte := op.extractLsb' 0 8
/-- `nnn`. -/
def fieldNnn (op : Word) : BitVec 12 := op.extractLsb' 0 12

/-! ### The decoder (R74) -/

/-- Family 8: the low nibble selects the operation. -/
def decode8 (op : Word) : Except DecodeError Instr :=
  let x := fieldX op
  let y := fieldY op
  let n := fieldN op
  if n = 0x0 then .ok (.ldReg x y)
  else if n = 0x1 then .ok (.orReg x y)
  else if n = 0x2 then .ok (.andReg x y)
  else if n = 0x3 then .ok (.xorReg x y)
  else if n = 0x4 then .ok (.addReg x y)
  else if n = 0x5 then .ok (.subReg x y)
  else if n = 0x6 then .ok (.shrReg x y)
  else if n = 0x7 then .ok (.subnReg x y)
  else if n = 0xE then .ok (.shlReg x y)
  else .error (.unknownOpcode op)

/-- Family E: the low byte selects the key skip. -/
def decodeE (op : Word) : Except DecodeError Instr :=
  let x := fieldX op
  let kk := fieldKk op
  if kk = 0x9E then .ok (.skp x)
  else if kk = 0xA1 then .ok (.sknp x)
  else .error (.unknownOpcode op)

/-- Family F: the low byte selects the operation. -/
def decodeF (op : Word) : Except DecodeError Instr :=
  let x := fieldX op
  let kk := fieldKk op
  if kk = 0x07 then .ok (.ldVxDt x)
  else if kk = 0x0A then .ok (.ldVxK x)
  else if kk = 0x15 then .ok (.ldDtVx x)
  else if kk = 0x18 then .ok (.ldStVx x)
  else if kk = 0x1E then .ok (.addI x)
  else if kk = 0x29 then .ok (.ldF x)
  else if kk = 0x33 then .ok (.ldB x)
  else if kk = 0x55 then .ok (.ldMemVx x)
  else if kk = 0x65 then .ok (.ldVxMem x)
  else .error (.unknownOpcode op)

/-- `decode(op)`, a pure function of the 16-bit opcode alone (R74, R82). -/
def decode (op : Word) : Except DecodeError Instr :=
  let hi := fieldHi op
  if hi = 0x0 then
    if op = 0x00E0 then .ok .cls
    else if op = 0x00EE then .ok .ret
    else .ok (.sys (fieldNnn op))
  else if hi = 0x1 then .ok (.jp (fieldNnn op))
  else if hi = 0x2 then .ok (.call (fieldNnn op))
  else if hi = 0x3 then .ok (.seImm (fieldX op) (fieldKk op))
  else if hi = 0x4 then .ok (.sneImm (fieldX op) (fieldKk op))
  else if hi = 0x5 then
    if fieldN op = 0x0 then .ok (.seReg (fieldX op) (fieldY op)) else .error (.unknownOpcode op)
  else if hi = 0x6 then .ok (.ldImm (fieldX op) (fieldKk op))
  else if hi = 0x7 then .ok (.addImm (fieldX op) (fieldKk op))
  else if hi = 0x8 then decode8 op
  else if hi = 0x9 then
    if fieldN op = 0x0 then .ok (.sneReg (fieldX op) (fieldY op)) else .error (.unknownOpcode op)
  else if hi = 0xA then .ok (.ldI (fieldNnn op))
  else if hi = 0xB then .ok (.jpV0 (fieldNnn op))
  else if hi = 0xC then .ok (.rnd (fieldX op) (fieldKk op))
  else if hi = 0xD then .ok (.drw (fieldX op) (fieldY op) (fieldN op).toFin)
  else if hi = 0xE then decodeE op
  else decodeF op

/-- The opcode two consecutive bytes form, the first the high byte (20_memory.md R52, 30_encoding.md R70). -/
def opcodeOfBytes (hi lo : Byte) : Word := hi ++ lo

/-- The decoder on bytes as they lie in memory: the instruction and the bytes after it. -/
def decodeBytes : List Byte → Except DecodeError (Instr × List Byte)
  | hi :: lo :: rest =>
    match decode (opcodeOfBytes hi lo) with
    | .ok i => .ok (i, rest)
    | .error e => .error e
  | [] | [_] => .error .truncated

/-! ### The encoder (R71, R72, R75) -/

/-- Formats A (and the two words of format Z, which lie in family 0). -/
def encodeA (hi : BitVec 4) (nnn : BitVec 12) : Word := hi ++ nnn
/-- The 4 bits of a register field. -/
def regField (x : Reg) : BitVec 4 := BitVec.ofFin x
/-- Formats XK and X (in X, `kk` is the fixed selector). -/
def encodeXK (hi : BitVec 4) (x : Reg) (kk : Byte) : Word := hi ++ regField x ++ kk
/-- Formats XY and XYN (in XY, `n` is the fixed selector). -/
def encodeXYN (hi : BitVec 4) (x y : Reg) (n : BitVec 4) : Word := hi ++ regField x ++ regField y ++ n

/-- The word of an instruction. -/
def encode : Instr → Word
  | .sys nnn => encodeA 0x0 nnn
  | .cls => 0x00E0
  | .ret => 0x00EE
  | .jp nnn => encodeA 0x1 nnn
  | .call nnn => encodeA 0x2 nnn
  | .seImm x kk => encodeXK 0x3 x kk
  | .sneImm x kk => encodeXK 0x4 x kk
  | .seReg x y => encodeXYN 0x5 x y 0x0
  | .ldImm x kk => encodeXK 0x6 x kk
  | .addImm x kk => encodeXK 0x7 x kk
  | .ldReg x y => encodeXYN 0x8 x y 0x0
  | .orReg x y => encodeXYN 0x8 x y 0x1
  | .andReg x y => encodeXYN 0x8 x y 0x2
  | .xorReg x y => encodeXYN 0x8 x y 0x3
  | .addReg x y => encodeXYN 0x8 x y 0x4
  | .subReg x y => encodeXYN 0x8 x y 0x5
  | .shrReg x y => encodeXYN 0x8 x y 0x6
  | .subnReg x y => encodeXYN 0x8 x y 0x7
  | .shlReg x y => encodeXYN 0x8 x y 0xE
  | .sneReg x y => encodeXYN 0x9 x y 0x0
  | .ldI nnn => encodeA 0xA nnn
  | .jpV0 nnn => encodeA 0xB nnn
  | .rnd x kk => encodeXK 0xC x kk
  | .drw x y n => encodeXYN 0xD x y (BitVec.ofFin n)
  | .skp x => encodeXK 0xE x 0x9E
  | .sknp x => encodeXK 0xE x 0xA1
  | .ldVxDt x => encodeXK 0xF x 0x07
  | .ldVxK x => encodeXK 0xF x 0x0A
  | .ldDtVx x => encodeXK 0xF x 0x15
  | .ldStVx x => encodeXK 0xF x 0x18
  | .addI x => encodeXK 0xF x 0x1E
  | .ldF x => encodeXK 0xF x 0x29
  | .ldB x => encodeXK 0xF x 0x33
  | .ldMemVx x => encodeXK 0xF x 0x55
  | .ldVxMem x => encodeXK 0xF x 0x65

/-- The high byte of a word, which lies first in memory (R70). -/
def wordHi (op : Word) : Byte := op.extractLsb' 8 8
/-- The low byte of a word. -/
def wordLo (op : Word) : Byte := op.extractLsb' 0 8

/-- The bytes of an instruction in memory order (R70). -/
def encodeBytes (i : Instr) : List Byte := [wordHi (encode i), wordLo (encode i)]

/-- The 16-bit word a row of the opcode table gives: its lowest `nbits` bits, the bits above them 0. -/
def tableWord (nbits w : Nat) : Word := BitVec.ofNat 16 (w % 2 ^ nbits)

/-- What the decoder reads from an instruction whose bits are `w`, numbered as spec/opcode_table.json numbers them. -/
def decodeTableWord (nbits w : Nat) : Option Instr :=
  let op := tableWord nbits w
  match decodeBytes [wordHi op, wordLo op] with
  | .ok (i, _) => some i
  | .error _ => none

end Sys2Proof
end

