-- ==== Sys2Proof/Config.lean ====
section
/-! DEFINITION. The parameters of the hardware (00_scope.md R7): the OPEN ones, which the model takes as arguments
(`Params`, held in State), with this hardware's values, and the fixed ones, which are constants; then the free values of
what the spec leaves to the host (93_implementation_defined.md U6, U7, U8). -/

namespace Sys2Proof

/-- The parameters R7 calls OPEN, fixed when a block is built (60_exceptions.md R186). Every operation takes them as
arguments or from the state; only `Config.hardware` gives them values. -/
structure Params where
  /-- `SCREEN_W` (92_eei_decisions.md D1). -/
  screenW : Nat
  /-- `SCREEN_H` (92_eei_decisions.md D1). -/
  screenH : Nat
  /-- `FONT_BASE` (92_eei_decisions.md D3). -/
  fontBase : Nat
  deriving DecidableEq, Repr

/-- `MEM_SIZE`. -/
def Config.memSize : Nat := 4096

/-- `ROM_BASE`: the load address and the entry point. -/
def Config.romBase : Nat := 0x200

/-- `ROM_MAX`: the largest ROM image in bytes. -/
def Config.romMax : Nat := 3584

/-- `STACK_DEPTH` (92_eei_decisions.md D2). -/
def Config.stackDepth : Nat := 16

/-- The values R7 allows for the OPEN parameters. -/
abbrev Params.Valid (p : Params) : Prop := 1 ≤ p.screenW ∧ 1 ≤ p.screenH ∧ p.fontBase + 80 ≤ Config.romBase

/-- The values of this hardware (92_eei_decisions.md D1, D3). -/
def Config.hardware : Params where
  screenW := 128
  screenH := 64
  fontBase := 0x050

/-- FREE VALUE (log entry 3): how many Ticks the host issues before a Step it was not told to issue; any number
(93_implementation_defined.md U8). -/
opaque Config.freeTicks : Nat → Nat

/-- FREE VALUE (log entry 3): the keys the Input Source supplies to such a Step, bit `k` for key `k`; any of the
65536 values (93_implementation_defined.md U7, 60_exceptions.md R202). -/
opaque Config.freeKeys : Nat → BitVec 16

/-- FREE VALUE (log entry 3): the random byte supplied to such a Step; any of the 256 values
(93_implementation_defined.md U6, 92_eei_decisions.md D16). -/
opaque Config.freeRnd : Nat → Byte

end Sys2Proof
end

