-- ==== Sys2Proof/Machine/State.lean ====
section
/-! DEFINITION. The state (10_state.md R41), the results and transactions at the block's interface (60_exceptions.md
R180, R209), the reasons a step could stop, and the state after reset (70_reset_and_hazards.md R210). -/

namespace Sys2Proof.Machine

/-- The six error kinds, all there are (60_exceptions.md R180). Only `unknownOpcode` carries a payload, the whole
16-bit word (92_eei_decisions.md D27). -/
inductive ErrorKind where
  /-- Raised by `Load` (R185). -/
  | romTooLarge
  /-- Raised by the fetch, `DRW`, `LD B, Vx`, `LD [I], Vx`, `LD Vx, [I]` (R181). -/
  | memoryOutOfBounds
  /-- Raised by the decode of an illegal word and by `SYS` (R182). -/
  | unknownOpcode (op : Word)
  /-- Raised by `CALL` (R183). -/
  | stackOverflow
  /-- Raised by `RET` (R184). -/
  | stackUnderflow
  /-- Raised by `Construct` for a zero width or height (R186). -/
  | invalidDimensions
  deriving DecidableEq, Repr

/-- What a transaction returns: `Ok` or `Err(kind, info)` (40_step_cycle.md R90). -/
inductive TxResult where
  | ok
  | err (e : ErrorKind)
  deriving DecidableEq, Repr

/-- The four transactions through which alone the host acts on the block (00_scope.md R6, 60_exceptions.md R209). -/
inductive Transaction where
  /-- `Construct` (70_reset_and_hazards.md R210). -/
  | construct
  /-- `Load(rom)` (70_reset_and_hazards.md R211). -/
  | load (rom : List Byte)
  /-- `Step(keys, rnd)` (40_step_cycle.md R90): bit `k` of `keys` is 1 when key `k` is pressed. -/
  | step (keys : BitVec 16) (rnd : Byte)
  /-- `Tick` (60_exceptions.md R198). -/
  | tick
  deriving DecidableEq, Repr

/-- The sixteen general registers (10_state.md R20). -/
abbrev RegFile := Vector Byte 16

/-- Memory: the cells whose byte differs from the reset contents, addresses strictly rising (`Memory.wf`). -/
abbrev Memory := List Host.Cell

/-- The pixels of a framebuffer of `H` rows of `W` one-bit pixels, row 0 the top one; column `c` of a row is bit `c` of its vector
(10_state.md R35, 45_display.md R160; log entry 6). -/
abbrev Pixels (W H : Nat) := Vector (BitVec W) H

/-- A framebuffer with its dimensions, which are set when it is allocated and never change (70_reset_and_hazards.md R210,
45_display.md R161). -/
structure Framebuffer where
  /-- `SCREEN_W` (00_scope.md R7). -/
  width : Nat
  /-- `SCREEN_H` (00_scope.md R7). -/
  height : Nat
  /-- `FB[row][col]` (10_state.md R35). -/
  pixels : Pixels width height
  deriving DecidableEq, Repr

/-- Everything the spec gives the machine (10_state.md R41), with the OPEN parameters the block was built with (00_scope.md
R7: `fontBase` here, the dimensions in `fb`), then the arguments and result of the transaction in
progress (R40), then the model's own three fields, which nothing in the block reads. -/
structure State where
  /-- `V[0..15]` (R20). -/
  v : RegFile
  /-- `I` (R27). -/
  i : Word
  /-- `pc` (R23). -/
  pc : Word
  /-- `SP`, the number of return addresses on the stack, 0..16 (R28). -/
  sp : Fin (Config.stackDepth + 1)
  /-- `STACK[0..15]` (R28). -/
  stack : Vector Word Config.stackDepth
  /-- `DT` (R29). -/
  dt : Byte
  /-- `ST` (R30). -/
  st : Byte
  /-- `BEEP` (R31). -/
  beep : Bool
  /-- `MEM[0..4095]` (R34). -/
  mem : Memory
  /-- `FB` (R35). -/
  fb : Framebuffer
  /-- `FONT_BASE` (00_scope.md R7), no register: what the block was built with; no transaction changes it. -/
  fontBase : Nat
  /-- The keys sampled by the Step in progress (40_step_cycle.md R90; log entry 4). -/
  keys : BitVec 16
  /-- The random byte sampled by the Step in progress (40_step_cycle.md R90; log entry 4). -/
  rnd : Byte
  /-- What the last Step, Load or Construct returned (40_step_cycle.md R90; log entry 1). -/
  result : TxResult
  /-- The model's own: the transactions the host is known to issue next, oldest first (log entry 2). -/
  pending : List Transaction
  /-- The model's own: how many free host choices have been drawn (log entry 3). -/
  draws : Nat
  /-- The model's own: the first error any transaction returned, never cleared (93_implementation_defined.md U1; log
  entry 1). -/
  firstError : Option ErrorKind
  deriving DecidableEq, Repr

/-- Why a step could stop the machine: NO REASON, the type is empty. Every failure of this hardware is a result
returned from a transaction, after which the machine is ready for the next one (60_exceptions.md R180, R188, R189,
R190), so it is a next state (log entry 1). Nothing raises a fault; safe and unsafe do not arise. -/
inductive Fault
  deriving DecidableEq, Repr

/-- Why an instruction could be refused. -/
inductive Refusal where
  /-- Raised by an arm of `exec` whose instruction has no meaning yet: no arm of this model. Safe. -/
  | notModelled (mnemonic : String)
  deriving DecidableEq, Repr

/-- All pixels 0, in the given dimensions (70_reset_and_hazards.md R210, 45_display.md R161). -/
def Framebuffer.zeroed (W H : Nat) : Framebuffer := ⟨W, H, Vector.replicate H 0⟩

/-- The OPEN parameters a block was built with (00_scope.md R7). -/
def State.params (s : State) : Params := ⟨s.fb.width, s.fb.height, s.fontBase⟩

/-- The state after `Construct` of a block built with the parameters `p` (70_reset_and_hazards.md R210, 10_state.md R41).
Memory lists nothing: an unlisted address reads as the reset contents, the font at `p.fontBase` included. The interface
fields and the model's own are at the values log entries 1 to 4 name. -/
def State.fresh (p : Params) : State where
  v := Vector.replicate 16 0
  i := 0
  pc := 0x200
  sp := 0
  stack := Vector.replicate Config.stackDepth 0
  dt := 0
  st := 0
  beep := false
  mem := []
  fb := Framebuffer.zeroed p.screenW p.screenH
  fontBase := p.fontBase
  keys := 0
  rnd := 0
  result := .ok
  pending := []
  draws := 0
  firstError := none

/-- The state after `Construct` of this hardware: 128 columns, 64 rows, the font at 0x050 (00_scope.md R7). -/
def State.reset : State := State.fresh Config.hardware

end Sys2Proof.Machine
end

