-- ==== Sys2Proof/Machine/Font.lean ====
section
/-! DEFINITION. The built-in font (20_memory.md R57) and with it the reset contents of memory (10_state.md R41). -/

namespace Sys2Proof.Machine

/-- Glyphs 0 to 7 (R57). -/
def fontLow : List Byte :=
  [0xF0, 0x90, 0x90, 0x90, 0xF0] ++ [0x20, 0x60, 0x20, 0x20, 0x70] ++
  [0xF0, 0x10, 0xF0, 0x80, 0xF0] ++ [0xF0, 0x10, 0xF0, 0x10, 0xF0] ++
  [0x90, 0x90, 0xF0, 0x10, 0x10] ++ [0xF0, 0x80, 0xF0, 0x10, 0xF0] ++
  [0xF0, 0x80, 0xF0, 0x90, 0xF0] ++ [0xF0, 0x10, 0x20, 0x40, 0x40]

/-- Glyphs 8 to F (R57). -/
def fontHigh : List Byte :=
  [0xF0, 0x90, 0xF0, 0x90, 0xF0] ++ [0xF0, 0x90, 0xF0, 0x10, 0xF0] ++
  [0xF0, 0x90, 0xF0, 0x90, 0x90] ++ [0xE0, 0x90, 0xE0, 0x90, 0xE0] ++
  [0xF0, 0x80, 0x80, 0x80, 0xF0] ++ [0xE0, 0x90, 0x90, 0x90, 0xE0] ++
  [0xF0, 0x80, 0xF0, 0x80, 0xF0] ++ [0xF0, 0x80, 0xF0, 0x80, 0x80]

/-- `FONT`: the 80 glyph bytes (R57). -/
def fontBytes : List Byte := fontLow ++ fontHigh

/-- The byte at `a` after `Construct` when the font lies at `base`: the font, zero everywhere else (R56, R57). -/
def resetByte (base a : Nat) : Byte :=
  if base ≤ a ∧ a < base + 80 then fontBytes.getD (a - base) 0 else 0

/-- What an unlisted address of memory reads as: the reset contents of a block whose font lies at `base`. -/
def Memory.initial (base a : Nat) : Byte := resetByte base a

/-- The address of glyph `d` when the font lies at `base`: computed, not looked up (44_index_and_memory.md R152). -/
def glyphAddress (base d : Nat) : Nat := base + 5 * d

end Sys2Proof.Machine
end

