-- ==== Sys2Proof/Machine/Ops.lean ====
section
/-! DEFINITION. The named operations over memory, registers, `pc` and stack, the end of an instruction, and raising an
error (60_exceptions.md R188, R189). -/

namespace Sys2Proof.Machine

/-! ### Memory cells (20_memory.md R50 to R60); `base` is the font's address, which decides what is listed -/

/-- The byte at `a`: the last one written there, or the reset contents (R60 (c)). -/
def Memory.read (base : Nat) : Memory → Nat → Byte
  | [], a => Memory.initial base a
  | (b, w) :: m, a => if a = b then w else Memory.read base m a

/-- The cell `(a, b)` in front of `m`, unless `b` is what `a` reads as when unlisted. -/
def Memory.cons (base a : Nat) (b : Byte) (m : Memory) : Memory :=
  if b = Memory.initial base a then m else (a, b) :: m

/-- Write one byte, keeping the canonical form. -/
def Memory.write (base : Nat) : Memory → Nat → Byte → Memory
  | [], a, b => Memory.cons base a b []
  | (a', b') :: m, a, b =>
    if a < a' then Memory.cons base a b ((a', b') :: m)
    else if a = a' then Memory.cons base a b m
    else (a', b') :: Memory.write base m a b

/-- The canonical form: every listed address exists, differs from its reset contents, and is below the ones after
it. -/
def Memory.wf (base : Nat) : Memory → Bool
  | [] => true
  | (a, b) :: m =>
    decide (a < Config.memSize) && decide (b ≠ Memory.initial base a) && m.all (fun c => decide (a < c.1)) &&
      Memory.wf base m

/-- The `n` bytes from `a` up. -/
def Memory.readBytes (base : Nat) (m : Memory) : Nat → Nat → List Byte
  | _, 0 => []
  | a, n + 1 => Memory.read base m a :: Memory.readBytes base m (a + 1) n

/-- Write `bytes` from `a` up. The addresses are distinct, so the order of the writes cannot be seen. -/
def Memory.writeBytes (base : Nat) (m : Memory) : Nat → List Byte → Memory
  | _, [] => m
  | a, b :: bs => Memory.write base (Memory.writeBytes base m (a + 1) bs) a b

/-! ### The memory of a state -/

/-- `MEM[a]`. -/
def State.byteAt (s : State) (a : Nat) : Byte := Memory.read s.fontBase s.mem a

/-- `MEM[a], MEM[a+1], ..., MEM[a+n-1]`. -/
def State.bytesAt (s : State) (a n : Nat) : List Byte := Memory.readBytes s.fontBase s.mem a n

/-- `MEM[a], MEM[a+1], ... <- bytes`. -/
def State.store (s : State) (a : Nat) (bytes : List Byte) : State :=
  { s with mem := Memory.writeBytes s.fontBase s.mem a bytes }

/-- The memory of a state is in its canonical form. -/
abbrev State.memWf (s : State) : Prop := Memory.wf s.fontBase s.mem = true

/-- A range of `n` bytes at `a` lies in memory: its last address is at most 4095, in unbounded arithmetic (R50, R51).
An empty range always does (45_display.md R162 (a)). -/
abbrev inRange (a n : Nat) : Prop := n = 0 ∨ a + n ≤ Config.memSize

/-- Checked read of a range: the whole range is checked before any byte is touched (R51). -/
def State.readMem (s : State) (a n : Nat) : Except ErrorKind (List Byte) :=
  if inRange a n then .ok (s.bytesAt a n) else .error .memoryOutOfBounds

/-- Checked write of a range: the whole range is checked before any byte is touched (R51). -/
def State.writeMem (s : State) (a : Nat) (bytes : List Byte) : Except ErrorKind State :=
  if inRange a bytes.length then .ok (s.store a bytes) else .error .memoryOutOfBounds

/-! ### Registers (10_state.md R20, R21) -/

/-- `V[r]`. -/
def State.getV (s : State) (r : Reg) : Byte := s.v[r]

/-- `V[r] <- b`. -/
def State.setV (s : State) (r : Reg) (b : Byte) : State := { s with v := s.v.set r b }

/-- `V[k], V[k+1], ... <- bytes`; indexes past `VF` do not exist. -/
def RegFile.setFrom (v : RegFile) : Nat → List Byte → RegFile
  | _, [] => v
  | k, b :: bs => RegFile.setFrom (v.setIfInBounds k b) (k + 1) bs

/-- `V[0] .. V[x]`, in order (44_index_and_memory.md R154). -/
def State.regsUpTo (s : State) (x : Reg) : List Byte := s.v.toList.take (x.val + 1)

/-! ### Program counter and stack (10_state.md R24, R28) -/

/-- The advance of `pc` past the fetched word (40_step_cycle.md R92). -/
def State.advance (s : State) : State := { s with pc := s.pc + 2 }

/-- A skip: a further 2 when the condition holds (42_skips.md R126). -/
def State.skipIf (s : State) (c : Bool) : State := if c then { s with pc := s.pc + 2 } else s

/-- `pc <- target`. -/
def State.jump (s : State) (target : Word) : State := { s with pc := target }

/-! ### How an instruction ends -/

/-- The Step returns `Ok` (40_step_cycle.md R94). -/
def State.succeed (s : State) : Host.Outcome State Fault Refusal := .next { s with result := .ok }

/-- TAKING AN ERROR, the one shared operation: the transaction returns `Err(e)` and nothing of the block changes;
nothing is saved, no mode changes and control goes nowhere (60_exceptions.md R188, R189). The model records the first
error outside the block (93_implementation_defined.md U1). There is no return from an error: the next Step simply runs
from this state (R190). -/
def State.raise (s : State) (e : ErrorKind) : State :=
  { s with result := .err e, firstError := s.firstError.or (some e) }

/-- An instruction that raises: every check precedes every write, so `s` is the state with only `pc` advanced
(60_exceptions.md R188). -/
def State.fail (s : State) (e : ErrorKind) : Host.Outcome State Fault Refusal := .next (s.raise e)

/-- Go on with the value of a check that can raise, or raise (00_scope.md R10). -/
def State.orFail {α : Type} (s : State) (r : Except ErrorKind α) (k : α → Host.Outcome State Fault Refusal) :
    Host.Outcome State Fault Refusal :=
  match r with
  | .error e => s.fail e
  | .ok a => k a

/-- The numeric code of a result, 0 for `Ok` (60_exceptions.md R180). -/
def TxResult.code : TxResult → Nat
  | .ok => 0
  | .err .romTooLarge => 1
  | .err .memoryOutOfBounds => 2
  | .err (.unknownOpcode _) => 3
  | .err .stackOverflow => 4
  | .err .stackUnderflow => 5
  | .err .invalidDimensions => 6

end Sys2Proof.Machine
end

