-- ==== Sys2Proof/Machine/Flags.lean ====
section
/-! DEFINITION. `chip8_alu` (43_load_and_alu.md R130): stateless functions of the operands as read, each answering the
result and, for the five flag-writing operations, the flag; and the flag's way into `VF`. -/

namespace Sys2Proof.Machine

/-- A flag as the byte written to `VF`: exactly 0 or 1 (10_state.md R26). -/
def flagByte (f : Bool) : Byte := if f then 1 else 0

/-- `(a + b) mod 256` and the carry (43_load_and_alu.md R138). -/
def aluAdd (a b : Byte) : Byte × Bool := (a + b, decide (255 < a.toNat + b.toNat))

/-- `(a - b) mod 256` and 1 for no borrow (43_load_and_alu.md R139; `SUBN` with the operands exchanged, R141). -/
def aluSub (a b : Byte) : Byte × Bool := (a - b, decide (b.toNat ≤ a.toNat))

/-- The logical shift right by one and the bit shifted out (43_load_and_alu.md R140). -/
def aluShr (b : Byte) : Byte × Bool := (b >>> 1, b.getLsbD 0)

/-- The shift left by one and the bit shifted out (43_load_and_alu.md R142). -/
def aluShl (b : Byte) : Byte × Bool := (b <<< 1, b.getLsbD 7)

/-- Write the result to `V[x]`, then the flag to `VF`: with `x = 15` the flag wins (43_load_and_alu.md R130). -/
def State.setVFlag (s : State) (x : Reg) (r : Byte × Bool) : State := (s.setV x r.1).setV VF (flagByte r.2)

end Sys2Proof.Machine
end

