-- ==== Sys2Proof/Machine/Alu.lean ====
section
/-! DEFINITION. Register loads and the ALU instructions (43_load_and_alu.md). None raises; none changes `pc`. -/

namespace Sys2Proof.Machine

/-- `LD Vx, kk` (R132). -/
def execLdImm (x : Reg) (kk : Byte) (s : State) : Host.Outcome State Fault Refusal :=
  (s.setV x kk).succeed

/-- `ADD Vx, kk` (R133): the carry is discarded. -/
def execAddImm (x : Reg) (kk : Byte) (s : State) : Host.Outcome State Fault Refusal :=
  (s.setV x (s.getV x + kk)).succeed

/-- `LD Vx, Vy` (R134). -/
def execLdReg (x y : Reg) (s : State) : Host.Outcome State Fault Refusal :=
  (s.setV x (s.getV y)).succeed

/-- `OR Vx, Vy` (R135). -/
def execOr (x y : Reg) (s : State) : Host.Outcome State Fault Refusal :=
  (s.setV x (s.getV x ||| s.getV y)).succeed

/-- `AND Vx, Vy` (R136). -/
def execAnd (x y : Reg) (s : State) : Host.Outcome State Fault Refusal :=
  (s.setV x (s.getV x &&& s.getV y)).succeed

/-- `XOR Vx, Vy` (R137). -/
def execXor (x y : Reg) (s : State) : Host.Outcome State Fault Refusal :=
  (s.setV x (s.getV x ^^^ s.getV y)).succeed

/-- `ADD Vx, Vy` (R138). -/
def execAddReg (x y : Reg) (s : State) : Host.Outcome State Fault Refusal :=
  (s.setVFlag x (aluAdd (s.getV x) (s.getV y))).succeed

/-- `SUB Vx, Vy` (R139). -/
def execSub (x y : Reg) (s : State) : Host.Outcome State Fault Refusal :=
  (s.setVFlag x (aluSub (s.getV x) (s.getV y))).succeed

/-- `SHR Vx, Vy` (R140): the source is `V[y]`. -/
def execShr (x y : Reg) (s : State) : Host.Outcome State Fault Refusal :=
  (s.setVFlag x (aluShr (s.getV y))).succeed

/-- `SUBN Vx, Vy` (R141). -/
def execSubn (x y : Reg) (s : State) : Host.Outcome State Fault Refusal :=
  (s.setVFlag x (aluSub (s.getV y) (s.getV x))).succeed

/-- `SHL Vx, Vy` (R142): the source is `V[y]`. -/
def execShl (x y : Reg) (s : State) : Host.Outcome State Fault Refusal :=
  (s.setVFlag x (aluShl (s.getV y))).succeed

/-- `RND Vx, kk` (R143): the random byte is the one this Step sampled. -/
def execRnd (x : Reg) (kk : Byte) (s : State) : Host.Outcome State Fault Refusal :=
  (s.setV x (s.rnd &&& kk)).succeed

end Sys2Proof.Machine
end

