-- ==== Sys2Proof/Machine/Operands.lean ====
section
/-! DEFINITION. Every operand form of the machine: immediates (30_encoding.md R73), the data address
(44_index_and_memory.md R156), low nibbles (92_eei_decisions.md D14), keys (46_timers_and_keys.md R174) and decimal
digits (44_index_and_memory.md R153). -/

namespace Sys2Proof.Machine

/-- `zext_16(nnn)` (R73). -/
def zextAddr (nnn : BitVec 12) : Word := nnn.setWidth 16

/-- The effective address `I + offset`, a natural number computed without wrap (R156, 20_memory.md R50). -/
def State.dataAddr (s : State) (offset : Nat) : Nat := s.i.toNat + offset

/-- `v[3:0]` as a number: the key or hexadecimal digit a register names (D14). -/
def lowNibble (b : Byte) : Nat := b.toNat % 16

/-- `keys[k] = 1`: key `k` is pressed in the keys this Step sampled (R174). -/
def State.keyDown (s : State) (k : Nat) : Bool := s.keys.getLsbD k

/-- The least pressed key of `0 .. 15`, or none (46_timers_and_keys.md R171). -/
def State.lowestKey (s : State) : Option Nat := (List.range 16).find? (fun k => s.keyDown k)

/-- The three decimal digits of a byte, most significant first (R153). -/
def decimalDigits (b : Byte) : List Byte :=
  [BitVec.ofNat 8 (b.toNat / 100), BitVec.ofNat 8 (b.toNat / 10 % 10), BitVec.ofNat 8 (b.toNat % 10)]

/-- The word `0nnn` that `SYS nnn` was fetched as (41_control_transfer.md R110). -/
def sysWord (nnn : BitVec 12) : Word := encodeA 0x0 nnn

end Sys2Proof.Machine
end

