-- ==== Sys2Proof/Machine/Control.lean ====
section
/-! DEFINITION. Control transfer (41_control_transfer.md). `s.pc` already holds `pc0 + 2` (40_step_cycle.md R92). -/

namespace Sys2Proof.Machine

/-- `SYS nnn` (R110): always raises `UnknownOpcode` with the fetched word. -/
def execSys (nnn : BitVec 12) (s : State) : Host.Outcome State Fault Refusal :=
  s.fail (.unknownOpcode (sysWord nnn))

/-- `RET` (R111). -/
def execRet (s : State) : Host.Outcome State Fault Refusal :=
  if h : s.sp.val = 0 then s.fail .stackUnderflow
  else
    have hk : s.sp.val - 1 < Config.stackDepth := by have := s.sp.isLt; omega
    State.succeed { s with sp := ⟨s.sp.val - 1, Nat.lt_succ_of_lt hk⟩, pc := s.stack[s.sp.val - 1] }

/-- `JP nnn` (R112). -/
def execJp (nnn : BitVec 12) (s : State) : Host.Outcome State Fault Refusal :=
  (s.jump (zextAddr nnn)).succeed

/-- `CALL nnn` (R113). -/
def execCall (nnn : BitVec 12) (s : State) : Host.Outcome State Fault Refusal :=
  if h : s.sp.val < Config.stackDepth then
    State.succeed { s with
      stack := s.stack.set s.sp.val s.pc
      sp := ⟨s.sp.val + 1, Nat.succ_lt_succ h⟩
      pc := zextAddr nnn }
  else s.fail .stackOverflow

/-- `JP V0, nnn` (R114): no 12-bit mask. -/
def execJpV0 (nnn : BitVec 12) (s : State) : Host.Outcome State Fault Refusal :=
  (s.jump (zextAddr nnn + zextByte (s.getV V0))).succeed

end Sys2Proof.Machine
end

