-- ==== Sys2Proof/Machine/Framebuffer.lean ====
section
/-! DEFINITION. `framebuffer_128x64_monochrome`, for any dimensions `W`, `H` (00_scope.md R7, 45_display.md R160 to
R163). -/

namespace Sys2Proof.Machine

/-! ### Pixels of given dimensions -/

/-- The pixel at row `r`, column `c`; one that does not exist reads clear. -/
def Pixels.get {W H : Nat} (px : Pixels W H) (r c : Nat) : Bool :=
  if h : r < H then px[r].getLsbD c else false

/-- The pixel at row `r`, column `c`, inverted. -/
def Pixels.flip {W H : Nat} (px : Pixels W H) (r c : Nat) : Pixels W H :=
  if h : r < H then px.set r (px[r] ^^^ BitVec.twoPow W c) else px

/-- The inner loop of R162: bit `7 - c` of sprite row `r` lands on column `(x0 + c) mod W`, row `(y0 + r) mod H`; the
second component is `hit`. -/
def drawBit {W H : Nat} (x0 y0 r : Nat) (b : Byte) (d : Pixels W H × Bool) (c : Nat) : Pixels W H × Bool :=
  if b.getLsbD (7 - c) then
    let col := (x0 + c) % W
    let row := (y0 + r) % H
    (Pixels.flip d.1 row col, d.2 || Pixels.get d.1 row col)
  else d

/-- One sprite row, columns 0 to 7 in order. -/
def drawRow {W H : Nat} (x0 y0 r : Nat) (b : Byte) (d : Pixels W H × Bool) : Pixels W H × Bool :=
  (List.range 8).foldl (drawBit x0 y0 r b) d

/-- The outer loop of R162, from sprite row `r` on. -/
def drawRows {W H : Nat} (x0 y0 : Nat) : Nat → List Byte → Pixels W H × Bool → Pixels W H × Bool
  | _, [], d => d
  | r, b :: bs, d => drawRows x0 y0 (r + 1) bs (drawRow x0 y0 r b d)

/-- XOR the sprite `bytes` onto the pixels with its top-left pixel at column `x0`, row `y0`, and say whether a pixel went
from 1 to 0 (R162, R163). -/
def drawSprite {W H : Nat} (px : Pixels W H) (x0 y0 : Nat) (bytes : List Byte) : Pixels W H × Bool :=
  drawRows x0 y0 0 bytes (px, false)

/-! ### The framebuffer, whose dimensions no operation changes -/

/-- `FB[r][c]` (10_state.md R35). -/
def Framebuffer.pixel (fb : Framebuffer) (r c : Nat) : Bool := fb.pixels.get r c

/-- `CLS`: all pixels 0 (R161). -/
def Framebuffer.clear (fb : Framebuffer) : Framebuffer := Framebuffer.zeroed fb.width fb.height

/-- `DRW`: the sprite XORed in, and the collision (R162). -/
def Framebuffer.draw (fb : Framebuffer) (x0 y0 : Nat) (bytes : List Byte) : Framebuffer × Bool :=
  let d := drawSprite fb.pixels x0 y0 bytes
  ({ fb with pixels := d.1 }, d.2)

/-- A zeroed framebuffer of the given dimensions; zero width or height is `InvalidDimensions` (60_exceptions.md R186,
70_reset_and_hazards.md R210). -/
def Framebuffer.allocate (W H : Nat) : Except ErrorKind Framebuffer :=
  if W = 0 ∨ H = 0 then .error .invalidDimensions else .ok (Framebuffer.zeroed W H)

end Sys2Proof.Machine
end

