-- ==== Sys2Proof/Machine/Display.lean ====
section
/-! DEFINITION. The framebuffer instructions (45_display.md) and what the two sinks read between transactions
(60_exceptions.md R203, R204). -/

namespace Sys2Proof.Machine

/-- `CLS` (R161). -/
def execCls (s : State) : Host.Outcome State Fault Refusal :=
  State.succeed { s with fb := s.fb.clear }

/-- `DRW Vx, Vy, n` (R162): coordinates are read before `VF` is written, and the whole sprite is checked before
anything is drawn. -/
def execDrw (x y : Reg) (n : Fin 16) (s : State) : Host.Outcome State Fault Refusal :=
  s.orFail (s.readMem (s.dataAddr 0) n.val) fun sprite =>
    let d := s.fb.draw (s.getV x).toNat (s.getV y).toNat sprite
    (State.setV { s with fb := d.1 } VF (flagByte d.2)).succeed

/-- What the Display Sink reads: row 0 first, column 0 first in each row (60_exceptions.md R203, 45_display.md R164). -/
def State.snapshot (s : State) : List (List Bool) :=
  (List.range s.fb.height).map fun r => (List.range s.fb.width).map fun c => s.fb.pixel r c

/-- What the Audio Sink reads (60_exceptions.md R204). -/
def State.beepActive (s : State) : Bool := s.beep

end Sys2Proof.Machine
end

