-- ==== Sys2Proof/Machine/Index.lean ====
section
/-! DEFINITION. The index register, loads and stores (44_index_and_memory.md). -/

namespace Sys2Proof.Machine

/-- `LD I, nnn` (R150). -/
def execLdI (nnn : BitVec 12) (s : State) : Host.Outcome State Fault Refusal :=
  State.succeed { s with i := zextAddr nnn }

/-- `ADD I, Vx` (R151): wraps at 16 bits, `VF` untouched. -/
def execAddI (x : Reg) (s : State) : Host.Outcome State Fault Refusal :=
  State.succeed { s with i := s.i + zextByte (s.getV x) }

/-- `LD F, Vx` (R152). -/
def execLdF (x : Reg) (s : State) : Host.Outcome State Fault Refusal :=
  State.succeed { s with i := BitVec.ofNat 16 (glyphAddress s.fontBase (lowNibble (s.getV x))) }

/-- `LD B, Vx` (R153). -/
def execLdB (x : Reg) (s : State) : Host.Outcome State Fault Refusal :=
  s.orFail (s.writeMem (s.dataAddr 0) (decimalDigits (s.getV x))) fun s' => s'.succeed

/-- The advance of `I` past `x + 1` bytes (R154, R155). -/
def State.advanceI (s : State) (x : Reg) : State := { s with i := s.i + BitVec.ofNat 16 (x.val + 1) }

/-- `LD [I], Vx` (R154). -/
def execLdMemVx (x : Reg) (s : State) : Host.Outcome State Fault Refusal :=
  s.orFail (s.writeMem (s.dataAddr 0) (s.regsUpTo x)) fun s' => (s'.advanceI x).succeed

/-- `LD Vx, [I]` (R155). -/
def execLdVxMem (x : Reg) (s : State) : Host.Outcome State Fault Refusal :=
  s.orFail (s.readMem (s.dataAddr 0) (x.val + 1)) fun bytes =>
    (State.advanceI { s with v := RegFile.setFrom s.v 0 bytes } x).succeed

end Sys2Proof.Machine
end

