-- ==== Sys2Proof/Machine/Skip.lean ====
section
/-! DEFINITION. Conditional skips (42_skips.md R120 to R126): they write nothing but `pc`. -/

namespace Sys2Proof.Machine

/-- `SE Vx, kk` (R120). -/
def execSeImm (x : Reg) (kk : Byte) (s : State) : Host.Outcome State Fault Refusal :=
  (s.skipIf (s.getV x == kk)).succeed

/-- `SNE Vx, kk` (R121). -/
def execSneImm (x : Reg) (kk : Byte) (s : State) : Host.Outcome State Fault Refusal :=
  (s.skipIf (s.getV x != kk)).succeed

/-- `SE Vx, Vy` (R122). -/
def execSeReg (x y : Reg) (s : State) : Host.Outcome State Fault Refusal :=
  (s.skipIf (s.getV x == s.getV y)).succeed

/-- `SNE Vx, Vy` (R123). -/
def execSneReg (x y : Reg) (s : State) : Host.Outcome State Fault Refusal :=
  (s.skipIf (s.getV x != s.getV y)).succeed

/-- `SKP Vx` (R124): the low nibble of `V[x]` names the key. -/
def execSkp (x : Reg) (s : State) : Host.Outcome State Fault Refusal :=
  (s.skipIf (s.keyDown (lowNibble (s.getV x)))).succeed

/-- `SKNP Vx` (R125). -/
def execSknp (x : Reg) (s : State) : Host.Outcome State Fault Refusal :=
  (s.skipIf (!s.keyDown (lowNibble (s.getV x)))).succeed

end Sys2Proof.Machine
end

