-- ==== Sys2Proof/Machine/Timer.lean ====
section
/-! DEFINITION. The timer and key instructions (46_timers_and_keys.md) and the `Tick` transaction (60_exceptions.md R198,
R199). -/

namespace Sys2Proof.Machine

/-- `LD Vx, DT` (R170). -/
def execLdVxDt (x : Reg) (s : State) : Host.Outcome State Fault Refusal :=
  (s.setV x s.dt).succeed

/-- `LD Vx, K` (R171): with no key down `pc` goes back to this instruction; otherwise the least pressed key. -/
def execLdVxK (x : Reg) (s : State) : Host.Outcome State Fault Refusal :=
  State.succeed <|
    match s.lowestKey with
    | none => { s with pc := s.pc - 2 }
    | some k => s.setV x (BitVec.ofNat 8 k)

/-- `LD DT, Vx` (R172). -/
def execLdDtVx (x : Reg) (s : State) : Host.Outcome State Fault Refusal :=
  State.succeed { s with dt := s.getV x }

/-- `LD ST, Vx` (R173): `BEEP` is not changed. -/
def execLdStVx (x : Reg) (s : State) : Host.Outcome State Fault Refusal :=
  State.succeed { s with st := s.getV x }

/-- One decrement toward zero, never below (R198). -/
def countDown (t : Byte) : Byte := if t = 0 then 0 else t - 1

/-- `Tick()`: `BEEP` from `ST` before the decrement (R198, R199). It returns nothing, so `result` stays. -/
def State.tick (s : State) : State :=
  { s with beep := decide (s.st ≠ 0), dt := countDown s.dt, st := countDown s.st }

/-- `n` Ticks in a row, in closed form, so that a free `n` leaves the rest of the state readable; equal to `n` uses of
`tick` (`Laws.tickMany_eq_iterate`). -/
def State.tickMany (s : State) (n : Nat) : State :=
  { s with
    beep := if n = 0 then s.beep else decide (n ≤ s.st.toNat)
    dt := BitVec.ofNat 8 (s.dt.toNat - n)
    st := BitVec.ofNat 8 (s.st.toNat - n) }

end Sys2Proof.Machine
end

