-- ==== Sys2Proof/Machine/Transactions.lean ====
section
/-! DEFINITION. The four transactions of the host (00_scope.md R6), the Step with its four phases (40_step_cycle.md R90
to R96), and the one the host issues when the state does not say which. -/

namespace Sys2Proof.Machine

/-! ### Construct and Load (70_reset_and_hazards.md) -/

/-- What `Construct` makes of a block: every piece of its state at the reset value, with a zeroed framebuffer of the
dimensions it was built with (R210), or `InvalidDimensions` (60_exceptions.md R186). The parameters and the model's own
fields stay. -/
def State.rebuilt (s : State) : Except ErrorKind State :=
  match Framebuffer.allocate s.fb.width s.fb.height with
  | .error e => .error e
  | .ok fb =>
    .ok { State.fresh s.params with fb := fb, pending := s.pending, draws := s.draws, firstError := s.firstError }

/-- `Construct()` (R210). -/
def State.construct (s : State) : State :=
  match s.rebuilt with
  | .error e => s.raise e
  | .ok t => t

/-- `Load(rom)` (R211): `RomTooLarge` with the state unchanged, or `Construct` and then the copy. -/
def State.load (rom : List Byte) (s : State) : State :=
  if rom.length > Config.romMax then s.raise .romTooLarge
  else
    match s.rebuilt with
    | .error e => s.raise e
    | .ok t => t.store Config.romBase rom

/-! ### Step (40_step_cycle.md) -/

/-- Phase 1: the two bytes at `pc` and `pc + 1`, big-endian, or `MemoryOutOfBounds` (R91, 20_memory.md R51, R52). -/
def State.fetch (s : State) : Except ErrorKind Word :=
  if s.pc.toNat + 1 ≥ Config.memSize then .error .memoryOutOfBounds
  else .ok (opcodeOfBytes (s.byteAt s.pc.toNat) (s.byteAt (s.pc.toNat + 1)))

/-- The two inputs of a Step are sampled once, at its start (R90). -/
def State.sample (s : State) (keys : BitVec 16) (rnd : Byte) : State := { s with keys := keys, rnd := rnd }

/-- Phases 3 and 4 on the fetched word, `pc` already advanced (R93, R94). -/
def State.decodeAndExecute (s : State) (op : Word) : Host.Outcome State Fault Refusal :=
  match decode op with
  | .error _ => s.fail (.unknownOpcode op)
  | .ok i => exec i s

/-- `Step(keys, rnd)`: fetch, advance, decode, execute (R96). A fetch that raises leaves `pc` alone (R91). -/
def stepTransaction (keys : BitVec 16) (rnd : Byte) (s : State) : Host.Outcome State Fault Refusal :=
  let s := s.sample keys rnd
  s.orFail s.fetch fun op => s.advance.decodeAndExecute op

/-! ### The host's total order (40_step_cycle.md R95) -/

/-- One transaction, whole. -/
def transact (t : Transaction) (s : State) : Host.Outcome State Fault Refusal :=
  match t with
  | .construct => .next s.construct
  | .load rom => .next (s.load rom)
  | .step keys rnd => stepTransaction keys rnd s
  | .tick => .next s.tick

/-- What the host does when no transaction is known: any number of Ticks, then a Step with any keys and any random
byte (93_implementation_defined.md U6, U7, U8). The three are free values of the draw counter. -/
def freeStep (s : State) : Host.Outcome State Fault Refusal :=
  stepTransaction (Config.freeKeys s.draws) (Config.freeRnd s.draws)
    (State.tickMany { s with draws := s.draws + 1 } (Config.freeTicks s.draws))

/-- The next transaction of the host's order, or the free one. -/
def nextTransaction (s : State) : Host.Outcome State Fault Refusal :=
  match s.pending with
  | [] => freeStep s
  | t :: rest => transact t { s with pending := rest }

/-- Where the next Step fetches; a `pc` from which no fetch can succeed is replaced by the entry point. -/
def State.fetchable (s : State) : State :=
  if s.pc.toNat + 1 < Config.memSize then s else { s with pc := BitVec.ofNat 16 Config.romBase }

/-- `op` stored, high byte first, where the next Step fetches. -/
def State.placeWord (s : State) (op : Word) : State :=
  let s := s.fetchable
  s.store s.pc.toNat [wordHi op, wordLo op]

end Sys2Proof.Machine
end

