-- ==== Sys2Proof/Machine/Step.lean ====
section
/-! DEFINITION. One step of the model: the host's next transaction (40_step_cycle.md R95, 60_exceptions.md R209); and the
host's way to place an instruction. -/

namespace Sys2Proof.Machine

/-- One step. -/
def step (s : State) : Host.Outcome State Fault Refusal := nextTransaction s

/-- `s` with the word a row of the opcode table gives stored where the next Step fetches, and that Step, with the inputs
`s` holds, the next transaction of the host (log entry 5). -/
def State.withFetchWord (s : State) (nbits w : Nat) : State :=
  { s.placeWord (tableWord nbits w) with pending := .step s.keys s.rnd :: s.pending }

end Sys2Proof.Machine
end

