-- ==== Sys2Proof/Safety.lean ====
section
/-! DEFINITION. The terms claims are written in: the pieces of state and what it means to leave one alone, what a
transaction returned, a run without a recorded error, the invariant of every reachable state (10_state.md R42), and the
state of rest (70_reset_and_hazards.md R227). -/

namespace Sys2Proof.Machine

/-- The pieces of the block's state (10_state.md R41); `SP` and the slots are one piece. -/
inductive Part where
  | regs | index | pc | stack | delay | sound | beep | memory | screen
  deriving DecidableEq, Repr

/-- The piece `p` has the same value in `s` and `t`; for memory, every address reads the same. -/
def Unchanged (p : Part) (s t : State) : Prop :=
  match p with
  | .regs => ∀ r, t.getV r = s.getV r
  | .index => t.i = s.i
  | .pc => t.pc = s.pc
  | .stack => t.sp = s.sp ∧ t.stack = s.stack
  | .delay => t.dt = s.dt
  | .sound => t.st = s.st
  | .beep => t.beep = s.beep
  | .memory => ∀ a, t.byteAt a = s.byteAt a
  | .screen => t.fb = s.fb

/-- Every piece of the block's state outside `changed` is the same in `s` and `t`, and so are the parameters the block
was built with (00_scope.md R7), among them the dimensions of the framebuffer whatever its pixels. -/
def Frame (changed : List Part) (s t : State) : Prop :=
  t.params = s.params ∧ ∀ p, p ∉ changed → Unchanged p s t

/-- The transaction from `s` to `t` returned `r`; an error is recorded if it is the first
(93_implementation_defined.md U1). -/
def Returned (r : TxResult) (s t : State) : Prop :=
  t.result = r ∧
  t.firstError = match r with
    | .ok => s.firstError
    | .err e => s.firstError.or (some e)

/-- The sampled inputs and the model's own schedule fields are the same. -/
def SameHost (s t : State) : Prop :=
  t.keys = s.keys ∧ t.rnd = s.rnd ∧ t.pending = s.pending ∧ t.draws = s.draws

/-- The instruction returned `Ok` and changed at most the pieces in `changed`. -/
def Did (changed : List Part) (s t : State) : Prop := Frame changed s t ∧ Returned .ok s t ∧ SameHost s t

/-- The instruction returned `Err(e)` and changed nothing of the block. -/
def Raised (e : ErrorKind) (s t : State) : Prop := Frame [] s t ∧ Returned (.err e) s t ∧ SameHost s t

/-- A run without a recorded error: the premise 93_implementation_defined.md U1 asks of claims about programs. -/
abbrev State.noError (s : State) : Prop := s.firstError = none

/-- Every reachable state (10_state.md R42). `SP ≤ 16` and the one-bit values hold by the types. -/
structure State.Inv (s : State) : Prop where
  /-- The block was built with parameters that 00_scope.md R7 allows. -/
  params_valid : s.params.Valid
  /-- Memory is in its canonical form. -/
  mem_wf : s.memWf
  /-- `pc ≤ 0x10FE` (10_state.md R25). -/
  pc_le : s.pc.toNat ≤ 0x10FE
  /-- Every return address on the stack is at most 4096. -/
  stack_le : ∀ k : Fin Config.stackDepth, k.val < s.sp.val → s.stack[k].toNat ≤ 4096
  /-- An error that was returned is recorded. -/
  error_recorded : s.result = .ok ∨ s.firstError ≠ none

/-- The machine is at rest: `pc = a` and `MEM[a..a+1]` encodes `JP a` (70_reset_and_hazards.md R227). -/
abbrev State.atRest (s : State) : Prop :=
  s.pc.toNat ≤ 0xFFE ∧ s.fetch = .ok (0x1000 + s.pc)

/-- Instructions one after the other, without fetching, until one does not answer a next state. -/
def execAll : List Instr → State → Host.Outcome State Fault Refusal
  | [], s => .next s
  | i :: is, s =>
    match exec i s with
    | .next t => execAll is t
    | .fault r => .fault r
    | .refused r => .refused r

/-- The pixel at row `r`, column `c` receives a 1 bit of the sprite of `n` rows at `I` drawn with its top-left pixel at
column `x0`, row `y0` (45_display.md R162, R163): bit `7 - j` of sprite byte `k`. -/
def SpriteCovers (s : State) (x0 y0 n r c : Nat) : Prop :=
  ∃ k j, k < n ∧ j < 8 ∧ (s.byteAt (s.i.toNat + k)).getLsbD (7 - j) = true ∧
    (y0 + k) % s.fb.height = r ∧ (x0 + j) % s.fb.width = c

/-- How many 1 bits of that sprite land on the pixel at row `r`, column `c`: more than one is possible only on a screen
narrower than 8 columns or lower than the sprite (45_display.md R162). -/
def spriteHits (s : State) (x0 y0 n r c : Nat) : Nat :=
  ((List.range n).map fun k => (List.range 8).countP fun j =>
    (s.byteAt (s.i.toNat + k)).getLsbD (7 - j) &&
      (decide ((y0 + k) % s.fb.height = r) && decide ((x0 + j) % s.fb.width = c))).sum

/-- The pieces of state an instruction may change (the access tables of 10_state.md R21, R33, R36 and 20_memory.md
R54); a Step also advances `pc` before it. -/
def Instr.parts : Instr → List Part
  | .sys _ => []
  | .cls => [.screen]
  | .ret | .call _ => [.pc, .stack]
  | .jp _ | .jpV0 _ | .seImm _ _ | .sneImm _ _ | .seReg _ _ | .sneReg _ _ | .skp _ | .sknp _ => [.pc]
  | .ldImm _ _ | .addImm _ _ | .ldReg _ _ | .orReg _ _ | .andReg _ _ | .xorReg _ _ | .addReg _ _ | .subReg _ _
  | .shrReg _ _ | .subnReg _ _ | .shlReg _ _ | .rnd _ _ | .ldVxDt _ => [.regs]
  | .ldI _ | .addI _ | .ldF _ => [.index]
  | .drw _ _ _ => [.regs, .screen]
  | .ldVxK _ => [.regs, .pc]
  | .ldDtVx _ => [.delay]
  | .ldStVx _ => [.sound]
  | .ldB _ => [.memory]
  | .ldMemVx _ => [.memory, .index]
  | .ldVxMem _ => [.regs, .index]

/-- The general registers an instruction may write: its destination, `VF` for the six flag writers (10_state.md R26),
`V[0..x]` for `LD Vx, [I]` (10_state.md R21). -/
def Instr.writesReg (i : Instr) (r : Reg) : Prop :=
  match i with
  | .ldImm x _ | .addImm x _ | .ldReg x _ | .orReg x _ | .andReg x _ | .xorReg x _ | .rnd x _ | .ldVxDt x
  | .ldVxK x => r = x
  | .addReg x _ | .subReg x _ | .shrReg x _ | .subnReg x _ | .shlReg x _ => r = x ∨ r = VF
  | .drw _ _ _ => r = VF
  | .ldVxMem x => r ≤ x
  | .sys _ | .cls | .ret | .jp _ | .call _ | .seImm _ _ | .sneImm _ _ | .seReg _ _ | .sneReg _ _ | .ldI _ | .jpV0 _
  | .skp _ | .sknp _ | .ldDtVx _ | .ldStVx _ | .addI _ | .ldF _ | .ldB _ | .ldMemVx _ => False

/-- The instructions that read the keys (60_exceptions.md R202). -/
def Instr.readsKeys (i : Instr) : Prop := ∃ x, i = .skp x ∨ i = .sknp x ∨ i = .ldVxK x

/-- The instructions that read the random byte (40_step_cycle.md R90). -/
def Instr.readsRnd (i : Instr) : Prop := ∃ x kk, i = .rnd x kk

end Sys2Proof.Machine
end

