-- ==== Sys2Proof/Certificates/Slice0/Obligations.lean ====
section
/-! DEFINITION. The statements for the provers. Each docstring says which sentence of the spec it formalises; where a
clause rests on a decision the spec marks as its own, or on a choice of the model, it names it. -/

open Sys2Proof Sys2Proof.Machine

/-- A Construct transaction, from any state of a block built with a non-zero width and height, and the state reset of
this hardware (128 columns, 64 rows, the font at 0x050): the parameters as built, every V register 0, I 0, pc 0x200,
SP 0, every stack slot 0, DT and ST 0, BEEP 0, memory zero but for the 80 font bytes at FONT_BASE, every pixel
clear. Construct returns Ok. The parameters, the stack's depth and slots, the font, and that I and BEEP are reset,
are the spec's own decisions D1, D2, D3, D4, D20; that the result stands in the state, Ok at reset, is the model's
choice (log entry 1). (00_scope.md R7; 70_reset_and_hazards.md R210; 10_state.md R41; 92_eei_decisions.md D1, D2,
D3, D4, D20; notes/assumptions/1.md) -/
def Obligations.ConstructLeavesResetState : Prop :=
  let Fresh (p : Params) (t : State) : Prop :=
    t.params = p ∧ (∀ r, t.getV r = 0) ∧ t.i = 0 ∧ t.pc = 0x200 ∧ t.sp.val = 0 ∧
    (∀ k : Fin Config.stackDepth, t.stack[k] = 0) ∧ t.dt = 0 ∧ t.st = 0 ∧ t.beep = false ∧
    (∀ a, t.byteAt a =
      if p.fontBase ≤ a ∧ a < p.fontBase + 80 then fontBytes.getD (a - p.fontBase) 0 else 0) ∧
    (∀ r c, t.fb.pixel r c = false) ∧ t.result = .ok
  Fresh { screenW := 128, screenH := 64, fontBase := 0x050 } State.reset ∧
  ∀ (s : State) (rest : List Transaction), s.pending = .construct :: rest → 1 ≤ s.fb.width → 1 ≤ s.fb.height →
    ∃ t, step s = .next t ∧ Fresh s.params t ∧ t.pending = rest ∧ t.draws = s.draws ∧
      t.firstError = s.firstError

/-- After Construct, whatever FONT_BASE the block was built with, glyph d lies at FONT_BASE + 5 d and has the five bytes
of the table of R57, each with an empty low nibble; the base of this hardware is 0x050. The bytes and the base are
the spec's own decision D3. (00_scope.md R7; 20_memory.md R57; 92_eei_decisions.md D3) -/
def Obligations.FontGlyphBytes : Prop :=
  State.reset.fontBase = 0x050 ∧
  ∀ (p : Params), ∀ g ∈ ([(0x0, [0xF0, 0x90, 0x90, 0x90, 0xF0]), (0x1, [0x20, 0x60, 0x20, 0x20, 0x70]),
      (0x2, [0xF0, 0x10, 0xF0, 0x80, 0xF0]), (0x3, [0xF0, 0x10, 0xF0, 0x10, 0xF0]),
      (0x4, [0x90, 0x90, 0xF0, 0x10, 0x10]), (0x5, [0xF0, 0x80, 0xF0, 0x10, 0xF0]),
      (0x6, [0xF0, 0x80, 0xF0, 0x90, 0xF0]), (0x7, [0xF0, 0x10, 0x20, 0x40, 0x40]),
      (0x8, [0xF0, 0x90, 0xF0, 0x90, 0xF0]), (0x9, [0xF0, 0x90, 0xF0, 0x10, 0xF0]),
      (0xA, [0xF0, 0x90, 0xF0, 0x90, 0x90]), (0xB, [0xE0, 0x90, 0xE0, 0x90, 0xE0]),
      (0xC, [0xF0, 0x80, 0x80, 0x80, 0xF0]), (0xD, [0xE0, 0x90, 0x90, 0x90, 0xE0]),
      (0xE, [0xF0, 0x80, 0xF0, 0x80, 0xF0]), (0xF, [0xF0, 0x80, 0xF0, 0x80, 0x80])] : List (Nat × List Byte)),
    (State.fresh p).bytesAt (p.fontBase + 5 * g.1) 5 = g.2 ∧ ∀ b ∈ g.2, b &&& 0x0F#8 = 0

/-- At least one word of each of the sixteen families (the highest nibble), written bit by bit from the format table and
the opcode map, decodes to the instruction it stands for. (30_encoding.md R71, R72, R75) -/
def Obligations.DecodeSampleWords : Prop :=
  decode 0b0000_0000_1110_0000#16 = .ok .cls ∧
  decode 0b0000_0000_1110_1110#16 = .ok .ret ∧
  decode 0b0000_0001_0010_0011#16 = .ok (.sys 0x123) ∧
  decode 0b0001_0010_0000_0100#16 = .ok (.jp 0x204) ∧
  decode 0b0010_0010_0000_1010#16 = .ok (.call 0x20A) ∧
  decode 0b0011_1010_0101_1100#16 = .ok (.seImm 10 0x5C) ∧
  decode 0b0100_1010_0000_0101#16 = .ok (.sneImm 10 0x05) ∧
  decode 0b0101_0001_0010_0000#16 = .ok (.seReg 1 2) ∧
  decode 0b0110_1010_0101_0101#16 = .ok (.ldImm 10 0x55) ∧
  decode 0b0111_0000_1111_1111#16 = .ok (.addImm 0 0xFF) ∧
  decode 0b1000_0001_0010_1110#16 = .ok (.shlReg 1 2) ∧
  decode 0b1001_0001_0010_0000#16 = .ok (.sneReg 1 2) ∧
  decode 0b1010_0011_0000_0000#16 = .ok (.ldI 0x300) ∧
  decode 0b1011_0011_0000_0000#16 = .ok (.jpV0 0x300) ∧
  decode 0b1100_0001_0000_1111#16 = .ok (.rnd 1 0x0F) ∧
  decode 0b1101_0001_0010_0101#16 = .ok (.drw 1 2 5) ∧
  decode 0b1110_0000_1010_0001#16 = .ok (.sknp 0) ∧
  decode 0b1111_0010_0110_0101#16 = .ok (.ldVxMem 2)

/-- For every well-formed instruction with every operand at every value, decode (encode i) is i; and the decoder on the
two bytes of i in memory order, followed by any bytes, answers i and leaves exactly the bytes after it.
(30_encoding.md R70, R71, R72, R74, R75) -/
def Obligations.DecodeEncodeAllInstructions : Prop :=
  ∀ (i : Instr) (rest : List Byte), i.wf = true →
    decode (encode i) = .ok i ∧ decodeBytes (encodeBytes i ++ rest) = .ok (i, rest)

/-- For every 16-bit word that the decoder accepts, the instruction is well-formed and encoding it gives back the word:
no two words have one meaning, and no bit of an accepted word is ignored. (30_encoding.md R74, R75, R76) -/
def Obligations.EncodeDecodeAllWords : Prop :=
  ∀ (op : Word) (i : Instr), decode op = .ok i → i.wf = true ∧ encode i = op

/-- A 16-bit word is rejected if and only if it is one of the words of the five families listed in R76, and the
rejection carries the whole word. (30_encoding.md R76; 92_eei_decisions.md D11) -/
def Obligations.DecodeRejectsExactlyIllegalWords : Prop :=
  ∀ op : Word,
    ((∃ e, decode op = .error e) ↔
      (op.toNat / 4096 = 0x5 ∧ op.toNat % 16 ≠ 0) ∨
      (op.toNat / 4096 = 0x8 ∧ op.toNat % 16 ∈ [0x8, 0x9, 0xA, 0xB, 0xC, 0xD, 0xF]) ∨
      (op.toNat / 4096 = 0x9 ∧ op.toNat % 16 ≠ 0) ∨
      (op.toNat / 4096 = 0xE ∧ op.toNat % 256 ∉ [0x9E, 0xA1]) ∨
      (op.toNat / 4096 = 0xF ∧ op.toNat % 256 ∉ [0x07, 0x0A, 0x15, 0x18, 0x1E, 0x29, 0x33, 0x55, 0x65])) ∧
    ∀ e, decode op = .error e → e = .unknownOpcode op

/-- When the host's next transaction is Step(keys, rnd) and the two bytes at pc decode to i, the step of the model is
exec i on the state with the inputs sampled, the transaction taken off the queue and pc advanced by 2.
(40_step_cycle.md R90, R91, R92, R94, R96; notes/assumptions/2.md) -/
def Obligations.StepRunsDecodedInstruction : Prop :=
  ∀ (s : State) (keys : BitVec 16) (rnd : Byte) (rest : List Transaction) (i : Instr),
    s.pending = .step keys rnd :: rest → s.pc.toNat + 1 < 4096 →
    decodeBytes [s.byteAt s.pc.toNat, s.byteAt (s.pc.toNat + 1)] = .ok (i, []) →
    step s = exec i { s with pending := rest, keys := keys, rnd := rnd, pc := s.pc + 2 }

/-- When no transaction is queued and the two bytes at pc decode to i, the step of the model is exec i on the state
after a free number of Ticks, with free keys and a free random byte, pc advanced by 2 and the draw counter by 1. The
three free values are the model's (log entry 3); the statement holds whatever they are. (40_step_cycle.md R96;
60_exceptions.md R198, R201; 93_implementation_defined.md U6, U7, U8; notes/assumptions/3.md) -/
def Obligations.FreeStepRunsDecodedInstruction : Prop :=
  ∀ (s : State) (i : Instr), s.pending = [] → s.pc.toNat + 1 < 4096 →
    decodeBytes [s.byteAt s.pc.toNat, s.byteAt (s.pc.toNat + 1)] = .ok (i, []) →
    step s = exec i
      { State.tick^[Config.freeTicks s.draws] s with
        keys := Config.freeKeys s.draws, rnd := Config.freeRnd s.draws, pc := s.pc + 2, draws := s.draws + 1 }

/-- With no transaction queued, one step equals the run of the model over the queue of that free number of Ticks
followed by one Step with the free inputs: the free step does nothing a host could not order. (40_step_cycle.md R95;
93_implementation_defined.md U8; notes/assumptions/2.md; notes/assumptions/3.md) -/
def Obligations.FreeStepIsAScheduledRun : Prop :=
  ∀ s : State, s.pending = [] →
    step s = Host.Core.run Sys2Proof.core (Config.freeTicks s.draws + 1)
      { s with
        draws := s.draws + 1
        pending := List.replicate (Config.freeTicks s.draws) .tick ++
          [.step (Config.freeKeys s.draws) (Config.freeRnd s.draws)] }

/-- From every state whatever, with whatever transaction is next, the step answers a next state, with the screen size
and font address the block was built with. Errors are results returned to the host, after which the machine goes on
(log entry 1). (00_scope.md R7; 60_exceptions.md R180, R186, R188, R189, R190; notes/assumptions/1.md) -/
def Obligations.StepAlwaysAnswersNext : Prop :=
  ∀ s : State, ∃ t, step s = .next t ∧ t.params = s.params

/-- If pc + 1 is at least 4096 the Step returns Err(MemoryOutOfBounds) and no state of the block changes, pc included.
Otherwise the opcode is MEM[pc] * 256 + MEM[pc + 1], whether pc is even or odd, and it is the same in every state
with the same pc and the same two bytes. (R91) -/
def Obligations.FetchReadsTwoBytesOrRaises : Prop :=
  ∀ (s : State) (keys : BitVec 16) (rnd : Byte) (rest : List Transaction), s.pending = .step keys rnd :: rest →
    (4096 ≤ s.pc.toNat + 1 →
      ∃ t, step s = .next t ∧ Frame [] s t ∧ Returned (.err .memoryOutOfBounds) s t ∧ t.pending = rest) ∧
    (s.pc.toNat + 1 < 4096 →
      ∃ op, s.fetch = .ok op ∧
        op.toNat = (s.byteAt s.pc.toNat).toNat * 256 + (s.byteAt (s.pc.toNat + 1)).toNat ∧
        ∀ u : State, u.pc = s.pc → u.byteAt s.pc.toNat = s.byteAt s.pc.toNat →
          u.byteAt (s.pc.toNat + 1) = s.byteAt (s.pc.toNat + 1) → u.fetch = .ok op)

/-- A Step whose fetched word decodes to Unknown or to SYS returns Err(UnknownOpcode(op)) with the word as fetched, pc
advanced by 2 and nothing else changed; and a Step that returns UnknownOpcode fetched that very word, which is
illegal or SYS. That SYS is an error is the spec's own decision D11, that nothing but pc changes its decision D17.
(60_exceptions.md R182, R188; 40_step_cycle.md R93, R94; 30_encoding.md R76, R77; 41_control_transfer.md R110;
92_eei_decisions.md D11, D17) -/
def Obligations.UnknownOpcodeRaisedExactlyForIllegalAndSys : Prop :=
  ∀ (s : State) (keys : BitVec 16) (rnd : Byte) (rest : List Transaction) (op : Word),
    s.pending = .step keys rnd :: rest → s.fetch = .ok op →
    (((∃ e, decode op = .error e) ∨ ∃ nnn, decode op = .ok (.sys nnn)) →
      ∃ t, step s = .next t ∧ Frame [.pc] s t ∧ t.pc = s.pc + 2 ∧ Returned (.err (.unknownOpcode op)) s t ∧
        t.pending = rest) ∧
    (∀ t op', step s = .next t → t.result = .err (.unknownOpcode op') →
      op' = op ∧ ((∃ e, decode op = .error e) ∨ ∃ nnn, decode op = .ok (.sys nnn)))

/-- If a Step returns an error, then either its fetch failed, the error is MemoryOutOfBounds and nothing of the block
changed, or its fetch succeeded, pc is pc0 + 2 and nothing else of the block changed: no register, memory byte,
stack slot, SP, I, timer or pixel. That nothing is written before an error is the spec's own decision D17.
(60_exceptions.md R188; 92_eei_decisions.md D17) -/
def Obligations.StepErrorChangesNothingButPc : Prop :=
  ∀ (s t : State) (keys : BitVec 16) (rnd : Byte) (rest : List Transaction) (e : ErrorKind),
    s.pending = .step keys rnd :: rest → step s = .next t → t.result = .err e →
    (4096 ≤ s.pc.toNat + 1 ∧ e = .memoryOutOfBounds ∧ Frame [] s t) ∨
    (s.pc.toNat + 1 < 4096 ∧ t.pc = s.pc + 2 ∧ Frame [.pc] s t)

/-- An instruction returns an error if and only if it is SYS (UnknownOpcode with its word), CALL with SP = 16
(StackOverflow), RET with SP = 0 (StackUnderflow), or one of the four memory instructions with its range past 4095
(MemoryOutOfBounds). RomTooLarge and InvalidDimensions are raised by no instruction. That SYS is an error and the
depth 16 are the spec's own decisions D11 and D2, the payloads its decision D27; that the two terms SYS 0x0E0 and
SYS 0x0EE, which no word decodes to, raise like every SYS is the model's choice (log entry 11). (60_exceptions.md
R181, R182, R183, R184, R185, R186, R187; 41_control_transfer.md R110, R111, R113; 45_display.md R162;
92_eei_decisions.md D2, D11, D27; notes/assumptions/11.md) -/
def Obligations.ErrorCausesOfInstructions : Prop :=
  ∀ (i : Instr) (s t : State) (e : ErrorKind), exec i s = .next t →
    (t.result = .err e ↔
      match e with
      | .unknownOpcode op => ∃ nnn, i = .sys nnn ∧ op.toNat = nnn.toNat
      | .stackOverflow => ∃ nnn, i = .call nnn ∧ s.sp.val = 16
      | .stackUnderflow => i = .ret ∧ s.sp.val = 0
      | .memoryOutOfBounds =>
        (∃ x y n, i = .drw x y n ∧ 0 < n.val ∧ 4095 < s.i.toNat + n.val - 1) ∨
        (∃ x, i = .ldB x ∧ 4095 < s.i.toNat + 2) ∨
        (∃ x, i = .ldMemVx x ∧ 4095 < s.i.toNat + x.val) ∨
        (∃ x, i = .ldVxMem x ∧ 4095 < s.i.toNat + x.val)
      | .romTooLarge | .invalidDimensions => False)

/-- Whatever transaction a step performs, a recorded first error stays recorded, an error the step returns is recorded
if it is the first, and no error is recorded that was not returned. The record is the model's own (log entry 1).
(93_implementation_defined.md U1; 60_exceptions.md R191; notes/assumptions/1.md) -/
def Obligations.FirstErrorIsKept : Prop :=
  ∀ s t : State, step s = .next t →
    (∀ e, s.firstError = some e → t.firstError = some e) ∧
    (s.firstError = none → ∀ e, t.firstError = some e → t.result = .err e) ∧
    (∀ e, s.firstError = none → s.result = .ok → t.result = .err e → t.firstError = some e)

/-- SYS nnn returns Err(UnknownOpcode(0nnn)) from every state and changes nothing of the block (pc already holds pc0 +
2). That SYS is an error is the spec's own decision D11 and that nothing changes its decision D17; that the two
terms SYS 0x0E0 and SYS 0x0EE, which R110 excludes and no word decodes to, do the same is the model's choice (log
entry 11). (41_control_transfer.md R110; 60_exceptions.md R182, R188; 92_eei_decisions.md D11, D17;
notes/assumptions/11.md) -/
def Obligations.SysRaisesUnknownOpcode : Prop :=
  ∀ (nnn : BitVec 12) (s : State),
    ∃ t op, exec (.sys nnn) s = .next t ∧ op.toNat = nnn.toNat ∧ Raised (.unknownOpcode op) s t

/-- With SP not 0, RET sets pc to STACK[SP - 1] and SP to SP - 1, and changes no slot and nothing else. The depth and
slots are the spec's own decision D2; that a slot at or above SP keeps its contents, which no program can observe
(R28, U10), is the model's reading of the pseudocode (log entry 9, DEDUCED). (41_control_transfer.md R111;
10_state.md R28; 92_eei_decisions.md D2; notes/assumptions/9.md) -/
def Obligations.RetPopsTheReturnAddress : Prop :=
  ∀ s : State, 0 < s.sp.val →
    ∃ t, exec .ret s = .next t ∧ t.sp.val = s.sp.val - 1 ∧ t.stack = s.stack ∧
      (∀ k : Fin Config.stackDepth, k.val = s.sp.val - 1 → t.pc = s.stack[k]) ∧ Did [.pc, .stack] s t

/-- RET with SP = 0 returns Err(StackUnderflow) as a recoverable result with nothing of the block changed; with SP not 0
it returns Ok. That nothing changes is the spec's own decision D17. (60_exceptions.md R184, R188;
41_control_transfer.md R111; 92_eei_decisions.md D17) -/
def Obligations.RetOnEmptyStackRaises : Prop :=
  ∀ s : State,
    (s.sp.val = 0 → ∃ t, exec .ret s = .next t ∧ Raised .stackUnderflow s t) ∧
    (s.sp.val ≠ 0 → ∃ t, exec .ret s = .next t ∧ t.result = .ok)

/-- JP nnn sets pc to nnn zero-extended, for every nnn, odd ones and ones below 0x200 included, returns Ok and changes
nothing else; with nnn = 0xFFF the next fetch fails; with the target its own address a Step leaves the whole state
of the block unchanged. The words that decode to it are exactly those of its encoding. (R112) -/
def Obligations.JpLoadsItsTarget : Prop :=
  (∀ (nnn : BitVec 12) (s : State),
    ∃ t, exec (.jp nnn) s = .next t ∧ t.pc.toNat = nnn.toNat ∧ Did [.pc] s t ∧
      (nnn.toNat = 0xFFF → t.fetch = .error .memoryOutOfBounds)) ∧
  (∀ (nnn : BitVec 12) (s : State) (keys : BitVec 16) (rnd : Byte) (rest : List Transaction) (op : Word),
    s.pending = .step keys rnd :: rest → s.fetch = .ok op → decode op = .ok (.jp nnn) → s.pc.toNat = nnn.toNat →
    ∃ t, step s = .next t ∧ Frame [] s t ∧ Returned .ok s t) ∧
  (∀ (nnn : BitVec 12) (op : Word), decode op = .ok (.jp nnn) ↔ op.toNat = 0x1000 + nnn.toNat)

/-- With SP below 16, CALL nnn stores pc (pc0 + 2) in STACK[SP], adds 1 to SP, sets pc to nnn, returns Ok and changes no
other slot and nothing else. With SP = 16 it returns Err(StackOverflow) with nothing of the block changed. The depth
16 is the spec's own decision D2 and that an error changes nothing its decision D17; that the slots above the new
top keep their contents, which no program can observe, is the model's reading of the pseudocode (log entry 9,
DEDUCED). (41_control_transfer.md R113; 10_state.md R28; 60_exceptions.md R183, R188; 92_eei_decisions.md D2, D17;
notes/assumptions/9.md) -/
def Obligations.CallPushesTheReturnAddressOrRaises : Prop :=
  ∀ (nnn : BitVec 12) (s : State),
    (s.sp.val < 16 →
      ∃ t, exec (.call nnn) s = .next t ∧ t.sp.val = s.sp.val + 1 ∧ t.pc.toNat = nnn.toNat ∧
        (∀ k : Fin Config.stackDepth, t.stack[k] = if k.val = s.sp.val then s.pc else s.stack[k]) ∧
        Did [.pc, .stack] s t) ∧
    (s.sp.val = 16 → ∃ t, exec (.call nnn) s = .next t ∧ Raised .stackOverflow s t)

/-- For any list of CALL targets that fits in the free slots: the CALLs all succeed, as many RETs bring pc, SP and every
live slot back with nothing but pc and the stack changed, and if the CALLs filled the stack one more CALL raises
StackOverflow. The depth 16 is the spec's own decision D2 and that the error changes nothing its decision D17.
(41_control_transfer.md R111, R113; 70_reset_and_hazards.md R223; 60_exceptions.md R183, R188; 92_eei_decisions.md
D2, D17; 95_test_vectors.md S6) -/
def Obligations.NestedCallsReturnInOrder : Prop :=
  ∀ (targets : List (BitVec 12)) (s : State), s.sp.val + targets.length ≤ 16 →
    ∃ t u, execAll (targets.map .call) s = .next t ∧ t.sp.val = s.sp.val + targets.length ∧
      execAll (List.replicate targets.length .ret) t = .next u ∧ u.pc = s.pc ∧ u.sp = s.sp ∧
      (∀ k : Fin Config.stackDepth, k.val < s.sp.val → u.stack[k] = s.stack[k]) ∧
      Frame [.pc, .stack] s t ∧ Frame [.pc, .stack] s u ∧ u.firstError = s.firstError ∧
      (s.sp.val + targets.length = 16 →
        ∀ nnn, ∃ w, exec (.call nnn) t = .next w ∧ Raised .stackOverflow t w)

/-- JP V0, nnn sets pc to nnn + V[0] exactly, up to 0x10FE, returns Ok and changes nothing else; a sum above 4094 makes
the next fetch raise MemoryOutOfBounds. That the sum is not masked is the spec's own decision D12.
(41_control_transfer.md R114; 92_eei_decisions.md D12) -/
def Obligations.JpV0AddsTheOffsetUnmasked : Prop :=
  ∀ (nnn : BitVec 12) (s : State),
    ∃ t, exec (.jpV0 nnn) s = .next t ∧ t.pc.toNat = nnn.toNat + (s.getV 0).toNat ∧ Did [.pc] s t ∧
      (4094 < nnn.toNat + (s.getV 0).toNat → t.fetch = .error .memoryOutOfBounds)

/-- SE Vx, kk and SE Vx, Vy add a further 2 to pc exactly when the operands are equal, SNE Vx, kk and SNE Vx, Vy exactly
when they differ; each returns Ok and changes nothing but pc. The words that decode to each are exactly those of its
encoding. A word of family 5 or 9 with a low nibble other than 0 is rejected. (R120; R121; R122; R123) -/
def Obligations.RegisterSkipsAdvancePcOnTheirCondition : Prop :=
  ∀ (x y : Reg) (kk : Byte) (s : State),
    (∃ t, exec (.seImm x kk) s = .next t ∧ t.pc = (if s.getV x = kk then s.pc + 2 else s.pc) ∧ Did [.pc] s t) ∧
    (∃ t, exec (.sneImm x kk) s = .next t ∧ t.pc = (if s.getV x ≠ kk then s.pc + 2 else s.pc) ∧ Did [.pc] s t) ∧
    (∃ t, exec (.seReg x y) s = .next t ∧ t.pc = (if s.getV x = s.getV y then s.pc + 2 else s.pc) ∧
      Did [.pc] s t) ∧
    (∃ t, exec (.sneReg x y) s = .next t ∧ t.pc = (if s.getV x ≠ s.getV y then s.pc + 2 else s.pc) ∧
      Did [.pc] s t) ∧
    (∀ op : Word, decode op = .ok (.seImm x kk) ↔ op.toNat = 0x3000 + x.val * 256 + kk.toNat) ∧
    (∀ op : Word, decode op = .ok (.sneImm x kk) ↔ op.toNat = 0x4000 + x.val * 256 + kk.toNat) ∧
    (∀ op : Word, decode op = .ok (.seReg x y) ↔ op.toNat = 0x5000 + x.val * 256 + y.val * 16) ∧
    (∀ op : Word, decode op = .ok (.sneReg x y) ↔ op.toNat = 0x9000 + x.val * 256 + y.val * 16) ∧
    (∀ op : Word, op.toNat / 4096 = 0x5 ∨ op.toNat / 4096 = 0x9 → op.toNat % 16 ≠ 0 → decode op = .error (.unknownOpcode op))

/-- SKP skips exactly when the key whose number is V[x] mod 16 is pressed in the keys of this Step, SKNP exactly when it
is not; each returns Ok and changes nothing but pc. That the high nibble is ignored is the spec's own decision D14.
(42_skips.md R124, R125; 92_eei_decisions.md D14) -/
def Obligations.KeySkipsTestTheSampledKey : Prop :=
  ∀ (x : Reg) (s : State),
    (∃ t, exec (.skp x) s = .next t ∧
      t.pc = (if s.keys.getLsbD ((s.getV x).toNat % 16) = true then s.pc + 2 else s.pc) ∧ Did [.pc] s t) ∧
    (∃ t, exec (.sknp x) s = .next t ∧
      t.pc = (if s.keys.getLsbD ((s.getV x).toNat % 16) = false then s.pc + 2 else s.pc) ∧ Did [.pc] s t)

/-- LD Vx, kk writes kk to V[x], LD Vx, Vy writes V[y] to V[x], VF being written only as that destination; each returns
Ok and changes no other register and nothing else. The words that decode to each are exactly those of its encoding.
(R132; R134) -/
def Obligations.LoadsCopyIntoTheirRegister : Prop :=
  ∀ (x y : Reg) (kk : Byte) (s : State),
    (∃ t, exec (.ldImm x kk) s = .next t ∧ t.getV x = kk ∧ (∀ r, r ≠ x → t.getV r = s.getV r) ∧
      Did [.regs] s t) ∧
    (∃ t, exec (.ldReg x y) s = .next t ∧ t.getV x = s.getV y ∧ (∀ r, r ≠ x → t.getV r = s.getV r) ∧
      Did [.regs] s t) ∧
    (∀ op : Word, decode op = .ok (.ldImm x kk) ↔ op.toNat = 0x6000 + x.val * 256 + kk.toNat) ∧
    (∀ op : Word, decode op = .ok (.ldReg x y) ↔ op.toNat = 0x8000 + x.val * 256 + y.val * 16)

/-- ADD Vx, kk writes (V[x] + kk) mod 256 to V[x], leaves every other register alone, VF included when x is not 15,
returns Ok and changes nothing else. That VF is left alone is the spec's own decision D9. (43_load_and_alu.md R133;
92_eei_decisions.md D9) -/
def Obligations.AddImmediateWrapsWithoutFlag : Prop :=
  ∀ (x : Reg) (kk : Byte) (s : State),
    ∃ t, exec (.addImm x kk) s = .next t ∧ (t.getV x).toNat = ((s.getV x).toNat + kk.toNat) % 256 ∧
      (∀ r, r ≠ x → t.getV r = s.getV r) ∧ Did [.regs] s t

/-- Each bit of the new V[x] is the OR, AND or XOR of the same bits of the old V[x] and V[y]; every other register is
left alone, VF included when x is not 15, Ok is returned and nothing else changes. That VF is left alone is the
spec's own decision D9. (43_load_and_alu.md R135, R136, R137; 92_eei_decisions.md D9) -/
def Obligations.LogicIsBitwiseWithoutFlag : Prop :=
  ∀ (x y : Reg) (s : State),
    (∃ t, exec (.orReg x y) s = .next t ∧
      (∀ k, (t.getV x).getLsbD k = ((s.getV x).getLsbD k || (s.getV y).getLsbD k)) ∧
      (∀ r, r ≠ x → t.getV r = s.getV r) ∧ Did [.regs] s t) ∧
    (∃ t, exec (.andReg x y) s = .next t ∧
      (∀ k, (t.getV x).getLsbD k = ((s.getV x).getLsbD k && (s.getV y).getLsbD k)) ∧
      (∀ r, r ≠ x → t.getV r = s.getV r) ∧ Did [.regs] s t) ∧
    (∃ t, exec (.xorReg x y) s = .next t ∧
      (∀ k, (t.getV x).getLsbD k = ((s.getV x).getLsbD k ^^ (s.getV y).getLsbD k)) ∧
      (∀ r, r ≠ x → t.getV r = s.getV r) ∧ Did [.regs] s t)

/-- V[x] becomes (V[x] + V[y]) mod 256 and VF becomes 1 if the true sum exceeds 255, else 0, both from the operands as
read; with x = 15, VF ends as the carry; every other register is left alone, Ok is returned and nothing else
changes. The words that decode to it are exactly those of its encoding. (R138) -/
def Obligations.AddWritesSumThenCarry : Prop :=
  ∀ (x y : Reg) (s : State),
    (∃ t, exec (.addReg x y) s = .next t ∧
      (x ≠ VF → (t.getV x).toNat = ((s.getV x).toNat + (s.getV y).toNat) % 256) ∧
      (t.getV VF).toNat = (if 255 < (s.getV x).toNat + (s.getV y).toNat then 1 else 0) ∧
      (∀ r, r ≠ x → r ≠ VF → t.getV r = s.getV r) ∧ Did [.regs] s t) ∧
    (∀ op : Word, decode op = .ok (.addReg x y) ↔ op.toNat = 0x8004 + x.val * 256 + y.val * 16)

/-- SUB writes (V[x] - V[y]) mod 256 and VF = 1 exactly when V[x] is at least V[y]; SUBN writes (V[y] - V[x]) mod 256
and VF = 1 exactly when V[y] is at least V[x]; with x = 15, VF ends as the flag; every other register is left alone,
Ok is returned and nothing else changes. The words that decode to each are exactly those of its encoding. (R139;
R141) -/
def Obligations.SubtractionsWriteDifferenceThenNoBorrow : Prop :=
  ∀ (x y : Reg) (s : State),
    (∃ t, exec (.subReg x y) s = .next t ∧
      (x ≠ VF → (t.getV x).toNat = ((s.getV x).toNat + 256 - (s.getV y).toNat) % 256) ∧
      (t.getV VF).toNat = (if (s.getV y).toNat ≤ (s.getV x).toNat then 1 else 0) ∧
      (∀ r, r ≠ x → r ≠ VF → t.getV r = s.getV r) ∧ Did [.regs] s t) ∧
    (∃ t, exec (.subnReg x y) s = .next t ∧
      (x ≠ VF → (t.getV x).toNat = ((s.getV y).toNat + 256 - (s.getV x).toNat) % 256) ∧
      (t.getV VF).toNat = (if (s.getV x).toNat ≤ (s.getV y).toNat then 1 else 0) ∧
      (∀ r, r ≠ x → r ≠ VF → t.getV r = s.getV r) ∧ Did [.regs] s t) ∧
    (∀ op : Word, decode op = .ok (.subReg x y) ↔ op.toNat = 0x8005 + x.val * 256 + y.val * 16) ∧
    (∀ op : Word, decode op = .ok (.subnReg x y) ↔ op.toNat = 0x8007 + x.val * 256 + y.val * 16)

/-- SHR writes V[y] div 2 to V[x] and bit 0 of V[y] to VF; SHL writes (2 V[y]) mod 256 to V[x] and bit 7 of V[y] to VF;
with x = 15, VF ends as the bit; every other register is left alone, V[y] included, Ok is returned and nothing else
changes. That the source is V[y] is the spec's own decision D6. (43_load_and_alu.md R140, R142; 92_eei_decisions.md
D6) -/
def Obligations.ShiftsMoveVyAndKeepTheBitShiftedOut : Prop :=
  ∀ (x y : Reg) (s : State),
    (∃ t, exec (.shrReg x y) s = .next t ∧ (x ≠ VF → (t.getV x).toNat = (s.getV y).toNat / 2) ∧
      (t.getV VF).toNat = (s.getV y).toNat % 2 ∧
      (∀ r, r ≠ x → r ≠ VF → t.getV r = s.getV r) ∧ Did [.regs] s t) ∧
    (∃ t, exec (.shlReg x y) s = .next t ∧ (x ≠ VF → (t.getV x).toNat = 2 * (s.getV y).toNat % 256) ∧
      (t.getV VF).toNat = (s.getV y).toNat / 128 ∧
      (∀ r, r ≠ x → r ≠ VF → t.getV r = s.getV r) ∧ Did [.regs] s t)

/-- Each bit of the new V[x] is the AND of the same bits of the random byte this Step sampled and of kk; every other
register is left alone, Ok is returned and nothing else changes. It holds for every random byte. That the byte is an
input is the spec's own decision D16. (43_load_and_alu.md R143; 92_eei_decisions.md D16) -/
def Obligations.RndMasksTheSampledRandomByte : Prop :=
  ∀ (x : Reg) (kk : Byte) (s : State),
    ∃ t, exec (.rnd x kk) s = .next t ∧ (∀ k, (t.getV x).getLsbD k = (s.rnd.getLsbD k && kk.getLsbD k)) ∧
      (∀ r, r ≠ x → t.getV r = s.getV r) ∧ Did [.regs] s t

/-- LD I, nnn sets I to nnn zero-extended, returns Ok and changes nothing else. The words that decode to it are exactly
those of its encoding. (R150) -/
def Obligations.LdILoadsTheAddress : Prop :=
  ∀ (nnn : BitVec 12) (s : State),
    (∃ t, exec (.ldI nnn) s = .next t ∧ t.i.toNat = nnn.toNat ∧ Did [.index] s t) ∧
    (∀ op : Word, decode op = .ok (.ldI nnn) ↔ op.toNat = 0xA000 + nnn.toNat)

/-- ADD I, Vx sets I to (I + V[x]) mod 65536, LD F, Vx sets I to FONT_BASE + 5 (V[x] mod 16) for every FONT_BASE that R7
allows, 0x050 on this hardware; each returns Ok and changes nothing else, VF included. The font base, the use of the
low nibble and that VF is left alone are the spec's own decisions D3, D14, D13. (00_scope.md R7;
44_index_and_memory.md R151, R152; 92_eei_decisions.md D3, D13, D14) -/
def Obligations.AddIWrapsAndLdFPointsAtTheGlyph : Prop :=
  ∀ (x : Reg) (s : State),
    (∃ t, exec (.addI x) s = .next t ∧ t.i.toNat = (s.i.toNat + (s.getV x).toNat) % 65536 ∧ Did [.index] s t) ∧
    (∃ t, exec (.ldF x) s = .next t ∧
      (s.fontBase + 80 ≤ 0x200 → t.i.toNat = s.fontBase + 5 * ((s.getV x).toNat % 16)) ∧ Did [.index] s t) ∧
    State.reset.fontBase = 0x050

/-- From a state whose memory is canonical: if I + 2 is at most 4095, LD B, Vx stores the hundreds, tens and ones of
V[x] at I, I + 1, I + 2, leaves every other byte, I and everything else alone, returns Ok and keeps memory
canonical; otherwise it returns Err(MemoryOutOfBounds) with nothing of the block changed, which is the spec's own
decision D17. (44_index_and_memory.md R153; 92_eei_decisions.md D17) -/
def Obligations.LdBStoresDecimalDigits : Prop :=
  ∀ (x : Reg) (s : State), s.memWf →
    (∀ a, a = s.dataAddr 0 → a + 2 ≤ 4095 →
      ∃ t, exec (.ldB x) s = .next t ∧ a = s.i.toNat ∧
        (t.byteAt a).toNat = (s.getV x).toNat / 100 ∧
        (t.byteAt (a + 1)).toNat = (s.getV x).toNat / 10 % 10 ∧
        (t.byteAt (a + 2)).toNat = (s.getV x).toNat % 10 ∧
        (∀ b, b < a ∨ a + 2 < b → t.byteAt b = s.byteAt b) ∧
        Did [.memory] s t ∧ t.memWf) ∧
    (4095 < s.i.toNat + 2 → ∃ t, exec (.ldB x) s = .next t ∧ Raised .memoryOutOfBounds s t)

/-- From a state whose memory is canonical: if I + x is at most 4095, LD [I], Vx stores V[k] at I + k for every k up to
x, leaves every other byte alone, sets I to I + x + 1, returns Ok, changes nothing else and keeps memory canonical;
otherwise it returns Err(MemoryOutOfBounds) with nothing of the block changed. That I advances and that an error
changes nothing are the spec's own decisions D7 and D17. (44_index_and_memory.md R154; 92_eei_decisions.md D7, D17) -/
def Obligations.RegisterDumpStoresAndAdvancesI : Prop :=
  ∀ (x : Reg) (s : State), s.memWf →
    (∀ a, a = s.dataAddr 0 → a + x.val ≤ 4095 →
      ∃ t, exec (.ldMemVx x) s = .next t ∧ a = s.i.toNat ∧
        (∀ k : Reg, k ≤ x → t.byteAt (a + k.val) = s.getV k) ∧
        (∀ b, b < a ∨ a + x.val < b → t.byteAt b = s.byteAt b) ∧
        t.i.toNat = s.i.toNat + x.val + 1 ∧ Did [.memory, .index] s t ∧ t.memWf) ∧
    (4095 < s.i.toNat + x.val → ∃ t, exec (.ldMemVx x) s = .next t ∧ Raised .memoryOutOfBounds s t)

/-- If I + x is at most 4095, LD Vx, [I] loads V[k] from I + k for every k up to x, VF included when x is 15, leaves
every register above x alone, sets I to I + x + 1, returns Ok and changes nothing else; otherwise it returns
Err(MemoryOutOfBounds) with nothing of the block changed. That I advances and that an error changes nothing are the
spec's own decisions D7 and D17. (44_index_and_memory.md R155; 92_eei_decisions.md D7, D17) -/
def Obligations.RegisterLoadReadsAndAdvancesI : Prop :=
  ∀ (x : Reg) (s : State),
    (s.i.toNat + x.val ≤ 4095 →
      ∃ t, exec (.ldVxMem x) s = .next t ∧
        (∀ k : Reg, k ≤ x → t.getV k = s.byteAt (s.i.toNat + k.val)) ∧
        (∀ k : Reg, x < k → t.getV k = s.getV k) ∧
        t.i.toNat = s.i.toNat + x.val + 1 ∧ Did [.regs, .index] s t) ∧
    (4095 < s.i.toNat + x.val → ∃ t, exec (.ldVxMem x) s = .next t ∧ Raised .memoryOutOfBounds s t)

/-- If LD [I], Vx stores at least two registers at the address pc holds, the next fetch reads V[0] as the high byte and
V[1] as the low byte, with nothing in between. (20_memory.md R60, R63; 44_index_and_memory.md R154) -/
def Obligations.FetchSeesTheStoreBeforeIt : Prop :=
  ∀ (x : Reg) (s : State), s.memWf → 1 ≤ x.val → s.i = s.pc → s.i.toNat + x.val ≤ 4095 →
    ∃ t op, exec (.ldMemVx x) s = .next t ∧ t.fetch = .ok op ∧
      op.toNat = (s.getV 0).toNat * 256 + (s.getV 1).toNat

/-- After CLS every pixel is 0, the snapshot still has as many rows and columns as the screen was built with (64 rows of
128 on this hardware), VF and everything else is unchanged, and Ok is returned. The dimensions are the spec's own
decision D1. (00_scope.md R7; 45_display.md R161, R164; 60_exceptions.md R203; 92_eei_decisions.md D1) -/
def Obligations.ClsClearsEveryPixel : Prop :=
  (∀ s : State,
    ∃ t, exec .cls s = .next t ∧ (∀ r c, t.fb.pixel r c = false) ∧
      t.fb.width = s.fb.width ∧ t.fb.height = s.fb.height ∧ t.snapshot.length = s.fb.height ∧
      (∀ row ∈ t.snapshot, row.length = s.fb.width ∧ ∀ p ∈ row, p = false) ∧ Did [.screen] s t) ∧
  State.reset.fb.width = 128 ∧ State.reset.fb.height = 64

/-- On a screen of at least 8 columns and as many rows as the sprite (this hardware's, where no two bits of one sprite
land on one pixel), if n is 0 or the sprite lies in memory, DRW Vx, Vy, n flips every pixel that receives a 1 bit of
the sprite, with row and column wrapped per pixel, and no other; VF becomes 1 if a set pixel was flipped, else 0;
the coordinates are V[x], V[y] as read, also for x or y = 15; every other register and everything else is unchanged
and Ok is returned. Dimensions and sprite conventions are the spec's own decisions D1 and D8.
DrwFlipsOncePerSpriteBitOnAnyScreen says the rest. (45_display.md R160, R162, R163; 92_eei_decisions.md D1, D8) -/
def Obligations.DrwXorsTheSpriteAndReportsCollision : Prop :=
  ∀ (x y : Reg) (n : Fin 16) (s : State), 8 ≤ s.fb.width → 1 ≤ s.fb.height → n.val ≤ s.fb.height →
    n.val = 0 ∨ s.i.toNat + n.val - 1 ≤ 4095 →
    ∃ t, exec (.drw x y n) s = .next t ∧
      (∀ r c, r < s.fb.height → c < s.fb.width →
        (SpriteCovers s (s.getV x).toNat (s.getV y).toNat n.val r c → t.fb.pixel r c = !s.fb.pixel r c) ∧
        (¬ SpriteCovers s (s.getV x).toNat (s.getV y).toNat n.val r c → t.fb.pixel r c = s.fb.pixel r c)) ∧
      (t.getV VF = 0 ∨ t.getV VF = 1) ∧
      (t.getV VF = 1 ↔ ∃ r c, SpriteCovers s (s.getV x).toNat (s.getV y).toNat n.val r c ∧
        s.fb.pixel r c = true) ∧
      (∀ r, r ≠ VF → t.getV r = s.getV r) ∧ Did [.regs, .screen] s t

/-- For every width and height of at least 1, if n is 0 or the sprite lies in memory, DRW Vx, Vy, n flips each pixel as
often as 1 bits of the sprite land on it, wrapped, and changes no other; VF becomes 1 if any of those flips cleared
a set pixel (one that was set and is hit, or one that is hit twice), else 0; every other register and everything
else is unchanged and Ok is returned. Dimensions, sprite conventions and the order of the bits are the spec's own
decisions D1 and D8. (00_scope.md R7; 45_display.md R160, R162, R163; 92_eei_decisions.md D1, D8) -/
def Obligations.DrwFlipsOncePerSpriteBitOnAnyScreen : Prop :=
  ∀ (x y : Reg) (n : Fin 16) (s : State), 1 ≤ s.fb.width → 1 ≤ s.fb.height →
    n.val = 0 ∨ s.i.toNat + n.val - 1 ≤ 4095 →
    ∃ t, exec (.drw x y n) s = .next t ∧
      (∀ r c, r < s.fb.height → c < s.fb.width →
        t.fb.pixel r c =
          (s.fb.pixel r c ^^ decide (spriteHits s (s.getV x).toNat (s.getV y).toNat n.val r c % 2 = 1))) ∧
      (t.getV VF = 0 ∨ t.getV VF = 1) ∧
      (t.getV VF = 1 ↔ ∃ r c, r < s.fb.height ∧ c < s.fb.width ∧
        ((1 ≤ spriteHits s (s.getV x).toNat (s.getV y).toNat n.val r c ∧ s.fb.pixel r c = true) ∨
          2 ≤ spriteHits s (s.getV x).toNat (s.getV y).toNat n.val r c)) ∧
      (∀ r, r ≠ VF → t.getV r = s.getV r) ∧ Did [.regs, .screen] s t

/-- DRW with n not 0 and I + n - 1 above 4095 returns Err(MemoryOutOfBounds) with nothing drawn, VF not written and
nothing else of the block changed, which is the spec's own decision D17. (45_display.md R162; 92_eei_decisions.md
D17) -/
def Obligations.DrwOutOfRangeRaises : Prop :=
  ∀ (x y : Reg) (n : Fin 16) (s : State), 0 < n.val → 4095 < s.i.toNat + n.val - 1 →
    ∃ t, exec (.drw x y n) s = .next t ∧ Raised .memoryOutOfBounds s t

/-- For coordinates not in VF and a sprite in memory: on a screen of any size, the second of two equal DRWs leaves the
framebuffer as it was before the first; and on a screen of at least 8 columns and as many rows as the sprite, VF is
then 1 exactly when the sprite puts a 1 bit on a pixel that was clear before the first (so on a clear screen, when
it has a 1 bit at all). Which pixels a sprite covers rests on the spec's own decisions D1 (the dimensions) and D8
(the sprite conventions). (00_scope.md R7; 45_display.md R160, R162, R163; 92_eei_decisions.md D1, D8;
95_test_vectors.md S8) -/
def Obligations.DrwTwiceRestoresTheScreen : Prop :=
  ∀ (x y : Reg) (n : Fin 16) (s : State), 1 ≤ s.fb.width → 1 ≤ s.fb.height → x ≠ VF → y ≠ VF →
    s.i.toNat + n.val ≤ 4096 →
    ∃ t u, exec (.drw x y n) s = .next t ∧ exec (.drw x y n) t = .next u ∧ u.fb = s.fb ∧
      (8 ≤ s.fb.width → n.val ≤ s.fb.height →
        (u.getV VF = 1 ↔ ∃ r c, SpriteCovers s (s.getV x).toNat (s.getV y).toNat n.val r c ∧
          s.fb.pixel r c = false)) ∧
      Frame [.regs] s u ∧ (∀ r, r ≠ VF → u.getV r = s.getV r)

/-- Allocating a framebuffer fails with InvalidDimensions exactly when the width or the height is 0, and otherwise gives
one of those dimensions with every pixel clear. A Construct, or a Load of a ROM that fits, of a block with a zero
dimension returns Err(InvalidDimensions) with nothing of the block changed, which is the model's reading for a block
that R7 does not allow (log entry 7). This hardware has 128 x 64 (decision D1), so its Construct never fails.
(00_scope.md R7; 60_exceptions.md R180, R186; 70_reset_and_hazards.md R210; 92_eei_decisions.md D1, D34;
notes/assumptions/7.md) -/
def Obligations.AllocationFailsExactlyOnZeroDimensions : Prop :=
  (∀ W H : Nat, Framebuffer.allocate W H = .error .invalidDimensions ↔ W = 0 ∨ H = 0) ∧
  (∀ (W H : Nat) (fb : Framebuffer), Framebuffer.allocate W H = .ok fb →
    fb.width = W ∧ fb.height = H ∧ ∀ r c, fb.pixel r c = false) ∧
  (∀ (s : State) (tr : Transaction) (rest : List Transaction), s.pending = tr :: rest →
    s.fb.width = 0 ∨ s.fb.height = 0 → (tr = .construct ∨ ∃ rom, rom.length ≤ 3584 ∧ tr = .load rom) →
    ∃ t, step s = .next t ∧ Frame [] s t ∧ Returned (.err .invalidDimensions) s t ∧ t.pending = rest) ∧
  State.reset.fb.width = 128 ∧ State.reset.fb.height = 64 ∧ State.reset.params.Valid

/-- LD DT, Vx writes V[x] to DT, returns Ok and changes nothing else, and after it n Ticks leave DT at V[x] less n,
never below 0 (so a 0 stays 0). LD Vx, DT writes DT to V[x], returns Ok and changes no other register and nothing
else. The words that decode to LD DT, Vx are exactly those of its encoding. (46_timers_and_keys.md R170, R172;
60_exceptions.md R198; 30_encoding.md R75) -/
def Obligations.DelayTimerLoads : Prop :=
  ∀ (x : Reg) (s : State),
    (∃ t, exec (.ldDtVx x) s = .next t ∧ t.dt = s.getV x ∧ Did [.delay] s t ∧
      ∀ n, (State.tick^[n] t).dt.toNat = (s.getV x).toNat - n) ∧
    (∀ op : Word, decode op = .ok (.ldDtVx x) ↔ op.toNat = 0xF015 + x.val * 256) ∧
    (∃ t, exec (.ldVxDt x) s = .next t ∧ t.getV x = s.dt ∧ (∀ r, r ≠ x → t.getV r = s.getV r) ∧
      Did [.regs] s t)

/-- LD ST, Vx writes V[x] to ST, returns Ok and changes nothing else, BEEP included. That BEEP is not touched is the
spec's own decision D20. (46_timers_and_keys.md R173; 92_eei_decisions.md D20) -/
def Obligations.SoundTimerLoadLeavesBeep : Prop :=
  ∀ (x : Reg) (s : State),
    ∃ t, exec (.ldStVx x) s = .next t ∧ t.st = s.getV x ∧ t.beep = s.beep ∧ Did [.sound] s t

/-- With no key pressed in the sampled keys, LD Vx, K subtracts 2 from pc and changes nothing else; otherwise V[x]
becomes the least pressed key number, no other register and nothing else changes; both return Ok. Level sensitivity
and the choice of the least key are the spec's own decision D15. (46_timers_and_keys.md R171; 92_eei_decisions.md
D15) -/
def Obligations.KeyWaitTakesTheLeastKeyOrRepeats : Prop :=
  ∀ (x : Reg) (s : State),
    ((∀ k, k < 16 → s.keys.getLsbD k = false) →
      ∃ t, exec (.ldVxK x) s = .next t ∧ t.pc = s.pc - 2 ∧ Did [.pc] s t) ∧
    (∀ k, k < 16 → s.keys.getLsbD k = true → (∀ j, j < k → s.keys.getLsbD j = false) →
      ∃ t, exec (.ldVxK x) s = .next t ∧ (t.getV x).toNat = k ∧ (∀ r, r ≠ x → t.getV r = s.getV r) ∧
        Did [.regs] s t)

/-- When the word at pc decodes to LD Vx, K and the Step samples no pressed key, the Step returns Ok with the whole
state of the block unchanged, pc included: the next Step fetches the same instruction. (46_timers_and_keys.md R171;
92_eei_decisions.md D15) -/
def Obligations.KeyWaitStepChangesNothing : Prop :=
  ∀ (s : State) (rnd : Byte) (rest : List Transaction) (op : Word) (x : Reg),
    s.pending = .step 0 rnd :: rest → s.fetch = .ok op → decode op = .ok (.ldVxK x) →
    ∃ t, step s = .next t ∧ Frame [] s t ∧ Returned .ok s t ∧ t.pending = rest ∧ t.fetch = .ok op

/-- A Tick sets BEEP to 1 exactly when ST was above 0, takes 1 from DT and from ST where they are above 0 and leaves a 0
at 0, independently of each other; pc, V, I, the stack, memory, the framebuffer and the last result are untouched,
and it cannot fail. That BEEP follows ST before the decrement is the spec's own decision D20; that the state keeps
the result of an earlier transaction is the model's choice (log entry 1). (60_exceptions.md R198, R199;
92_eei_decisions.md D20; notes/assumptions/1.md) -/
def Obligations.TickCountsDownBothTimers : Prop :=
  ∀ (s : State) (rest : List Transaction), s.pending = .tick :: rest →
    ∃ t, step s = .next t ∧ t.dt.toNat = s.dt.toNat - 1 ∧ t.st.toNat = s.st.toNat - 1 ∧
      (t.beep = true ↔ 0 < s.st.toNat) ∧ Frame [.delay, .sound, .beep] s t ∧
      t.result = s.result ∧ t.firstError = s.firstError ∧ t.pending = rest

/-- After n Ticks each timer is its value less n, never below 0, and for n at least 1 BEEP is 1 exactly when n is at
most the ST there was: from the first Tick through the ST-th, and 0 from the next on. That BEEP follows ST before
the decrement is the spec's own decision D20. (60_exceptions.md R198, R199; 92_eei_decisions.md D20) -/
def Obligations.BeepSoundsForSoundTimerTicks : Prop :=
  ∀ (n : Nat) (s : State),
    (State.tick^[n] s).dt.toNat = s.dt.toNat - n ∧ (State.tick^[n] s).st.toNat = s.st.toNat - n ∧
    (1 ≤ n → ((State.tick^[n] s).beep = true ↔ n ≤ s.st.toNat)) ∧
    Frame [.delay, .sound, .beep] s (State.tick^[n] s)

/-- Whatever word a Step fetches: BEEP is unchanged; DT is unchanged unless the word decodes to LD DT, Vx, which sets it
to V[x]; ST is unchanged unless the word decodes to LD ST, Vx, which sets it to V[x]. (R97) -/
def Obligations.StepsLeaveTheTimersAlone : Prop :=
  ∀ (s t : State) (keys : BitVec 16) (rnd : Byte) (rest : List Transaction),
    s.pending = .step keys rnd :: rest → step s = .next t →
    t.beep = s.beep ∧
    (t.dt = s.dt ∨ ∃ op x, s.fetch = .ok op ∧ decode op = .ok (.ldDtVx x) ∧ t.dt = s.getV x) ∧
    (t.st = s.st ∨ ∃ op x, s.fetch = .ok op ∧ decode op = .ok (.ldStVx x) ∧ t.st = s.getV x)

/-- For every instruction and every state: registers, I, pc, the stack, DT, ST, BEEP, each byte of memory and the
framebuffer are unchanged unless the instruction is one of those the access tables name as a writer of that piece;
the parameters the block was built with, the sampled inputs and the host's queue are never changed. (00_scope.md R7;
10_state.md R21, R33, R36; 20_memory.md R54) -/
def Obligations.InstructionsChangeOnlyTheirPieces : Prop :=
  ∀ (i : Instr) (s t : State), exec i s = .next t → Frame (Instr.parts i) s t ∧ SameHost s t

/-- If an instruction changes V[r], then r is its destination register, or it is one of the six flag writers and r is
15, or it is LD Vx, [I] and r is at most x. The six flag writers always leave VF at 0 or 1 when they return Ok.
(10_state.md R21, R26; 92_eei_decisions.md D9, D10) -/
def Obligations.RegistersChangeOnlyAsDestinations : Prop :=
  ∀ (i : Instr) (s t : State), exec i s = .next t →
    (∀ r, t.getV r ≠ s.getV r → Instr.writesReg i r) ∧
    (t.result = .ok →
      (∃ x y n, i = .addReg x y ∨ i = .subReg x y ∨ i = .shrReg x y ∨ i = .subnReg x y ∨ i = .shlReg x y ∨
        i = .drw x y n) → t.getV VF = 0 ∨ t.getV VF = 1)

/-- Two executions of one instruction from one state with different keys and random bytes agree in the whole state of
the block and in the result, unless the instruction reads the input that differs. (60_exceptions.md R202;
40_step_cycle.md R90, R99; 10_state.md R40) -/
def Obligations.InputsReachOnlyTheirReaders : Prop :=
  ∀ (i : Instr) (s t t' : State) (k k' : BitVec 16) (b b' : Byte),
    exec i (s.sample k b) = .next t → exec i (s.sample k' b') = .next t' →
    (Instr.readsKeys i → k = k') → (Instr.readsRnd i → b = b') →
    Frame [] t t' ∧ t'.result = t.result ∧ t'.firstError = t.firstError

/-- If pc is a, at most 0xFFE, and the word at a is JP a, then a Step returns Ok, leaves the whole state of the block
unchanged, and the machine is still at rest; a Tick keeps it at rest too. The convention is the spec's own decision
D25. (70_reset_and_hazards.md R227; 92_eei_decisions.md D25) -/
def Obligations.SelfJumpIsTheRestState : Prop :=
  ∀ s : State, s.atRest →
    (∀ (keys : BitVec 16) (rnd : Byte) (rest : List Transaction), s.pending = .step keys rnd :: rest →
      ∃ t, step s = .next t ∧ Frame [] s t ∧ Returned .ok s t ∧ t.atRest) ∧
    s.tick.atRest

/-- Load of at most 3584 bytes, after any history and for every screen size of at least 1 by 1 and every font address,
returns Ok and leaves: byte j of the ROM at 0x200 + j, every other byte at its reset contents, registers, I, SP,
stack, timers, BEEP and framebuffer as Construct leaves them, pc = 0x200, and memory canonical. That memory and the
framebuffer are rebuilt, and that shorter ROMs leave zeros behind them, are the spec's own decisions D4, D5, D28;
the canonical form is the model's (log entry 8). (00_scope.md R7; 70_reset_and_hazards.md R211; 92_eei_decisions.md
D4, D5, D28; notes/assumptions/8.md) -/
def Obligations.LoadRebuildsTheStateAndCopiesTheRom : Prop :=
  ∀ (s : State) (rom : List Byte) (rest : List Transaction), s.pending = .load rom :: rest → rom.length ≤ 3584 →
    1 ≤ s.fb.width → 1 ≤ s.fb.height →
    ∃ t, step s = .next t ∧ t.result = .ok ∧ t.pending = rest ∧
      (∀ j b, rom[j]? = some b → t.byteAt (0x200 + j) = b) ∧
      (∀ a, a < 0x200 ∨ 0x200 + rom.length ≤ a → t.byteAt a = (State.fresh s.params).byteAt a) ∧
      Frame [.memory] (State.fresh s.params) t ∧ t.memWf

/-- Load of more than 3584 bytes returns Err(RomTooLarge) with the state of the block unchanged, at most 3584 bytes
return Ok (on a screen of at least 1 by 1, as R7 requires), and a Step never returns RomTooLarge. (R185) -/
def Obligations.LoadTooLargeChangesNothing : Prop :=
  (∀ (s : State) (rom : List Byte) (rest : List Transaction), s.pending = .load rom :: rest →
    (3584 < rom.length →
      ∃ t, step s = .next t ∧ Frame [] s t ∧ Returned (.err .romTooLarge) s t ∧ t.pending = rest) ∧
    (rom.length ≤ 3584 → 1 ≤ s.fb.width → 1 ≤ s.fb.height → ∃ t, step s = .next t ∧ t.result = .ok)) ∧
  (∀ (s t : State) (keys : BitVec 16) (rnd : Byte) (rest : List Transaction),
    s.pending = .step keys rnd :: rest → step s = .next t → t.result ≠ .err .romTooLarge)

/-- Two Loads of the same ROM, from any two states whatever of blocks built with the same parameters (a screen of at
least 1 by 1, as R7 requires), leave the block in the same state, bit for bit, memory list included, and a second Load
changes nothing. That memory, the framebuffer, I and BEEP are among the things rebuilt is the spec's own decision D4, D5
(conflict C3); the memory list is the model's (log entry 8). (00_scope.md R7; 70_reset_and_hazards.md R211, R212;
90_conflicts.md C3; 92_eei_decisions.md D4, D5; notes/assumptions/8.md) -/
def Obligations.LoadForgetsHistory : Prop :=
  ∀ (s s' : State) (rom : List Byte), rom.length ≤ 3584 → s'.params = s.params → 1 ≤ s.fb.width →
    1 ≤ s.fb.height →
    Frame [] (s.load rom) (s'.load rom) ∧ (s.load rom).mem = (s'.load rom).mem ∧
    (s.load rom).load rom = s.load rom

/-- After a Load of a ROM of at least 2 and at most 3584 bytes, pc is 0x200 and the first Step fetches the opcode formed
by the first two ROM bytes, big-endian, whatever the state before (of a block whose screen is at least 1 by 1, as R7
requires). (R213) -/
def Obligations.FirstStepFetchesTheFirstTwoRomBytes : Prop :=
  ∀ (s : State) (b0 b1 : Byte) (bs : List Byte) (rest : List Transaction),
    s.pending = .load (b0 :: b1 :: bs) :: rest → (b0 :: b1 :: bs).length ≤ 3584 →
    1 ≤ s.fb.width → 1 ≤ s.fb.height →
    ∃ t op, step s = .next t ∧ t.pc = 0x200 ∧ t.fetch = .ok op ∧ op.toNat = b0.toNat * 256 + b1.toNat

/-- At reset the parameters are ones R7 allows, memory is canonical, pc is at most 0x10FE, every live return address is
at most 4096, and no unrecorded error stands. The canonical form is the model's (log entry 8, DEDUCED), and so is
the record of errors with its reset values (log entry 1, DESIGN CHOICE). (00_scope.md R7; 10_state.md R41, R42;
notes/assumptions/1.md; notes/assumptions/8.md) -/
def Obligations.InvariantHoldsAtReset : Prop :=
  State.reset.Inv

/-- From every state that meets the invariant, a step (Construct, Load, Tick, a queued Step or a free one) leads to a
state that meets it: the parameters stay ones R7 allows, memory stays in its canonical form, pc stays at most
0x10FE, every live return address stays at most 4096, and errors stay recorded. The bounds on pc and the stack are
R42's; the canonical form is the model's (log entry 8, DEDUCED), and so is the record of errors (log entry 1, DESIGN
CHOICE). (00_scope.md R7; 10_state.md R25, R42; 40_step_cycle.md R96; 70_reset_and_hazards.md R211;
notes/assumptions/1.md; notes/assumptions/8.md) -/
def Obligations.EveryStepKeepsTheInvariant : Prop :=
  ∀ s t : State, s.Inv → step s = .next t → t.Inv
end

