-- ==== Sys2Proof/Laws/Decode.lean ====
section
/-! SUPPORT. The fields of a word and the words of the formats as numbers, the fields of an encoded word, and every word
as the concatenation of its fields (30_encoding.md R71, R72). -/

namespace Sys2Proof

@[simp] theorem regField_toFin (x : Reg) : (regField x).toFin = x := rfl

@[simp] theorem regField_of_toFin (b : BitVec 4) : regField b.toFin = b := rfl

@[simp] theorem regField_toNat (x : Reg) : (regField x).toNat = x.val := rfl

/-! ### Fields as numbers (R71) -/

theorem fieldHi_toNat (op : Word) : (fieldHi op).toNat = op.toNat / 4096 := by
  have := op.isLt
  simp only [fieldHi, BitVec.extractLsb'_toNat, Nat.shiftRight_eq_div_pow]; omega

theorem fieldX_val (op : Word) : (fieldX op).val = op.toNat / 256 % 16 := by
  simp only [fieldX, BitVec.val_toFin, BitVec.extractLsb'_toNat, Nat.shiftRight_eq_div_pow]

theorem fieldY_val (op : Word) : (fieldY op).val = op.toNat / 16 % 16 := by
  simp only [fieldY, BitVec.val_toFin, BitVec.extractLsb'_toNat, Nat.shiftRight_eq_div_pow]

theorem fieldN_toNat (op : Word) : (fieldN op).toNat = op.toNat % 16 := by
  simp only [fieldN, BitVec.extractLsb'_toNat, Nat.shiftRight_zero]

theorem fieldKk_toNat (op : Word) : (fieldKk op).toNat = op.toNat % 256 := by
  simp only [fieldKk, BitVec.extractLsb'_toNat, Nat.shiftRight_zero]

theorem fieldNnn_toNat (op : Word) : (fieldNnn op).toNat = op.toNat % 4096 := by
  simp only [fieldNnn, BitVec.extractLsb'_toNat, Nat.shiftRight_zero]

/-! ### Formats as numbers (R72) -/

theorem append_toNat {m n : Nat} (a : BitVec m) (b : BitVec n) : (a ++ b).toNat = a.toNat * 2 ^ n + b.toNat := by
  rw [BitVec.toNat_append, ← Nat.shiftLeft_add_eq_or_of_lt b.isLt, Nat.shiftLeft_eq]

theorem encodeA_toNat (h : BitVec 4) (nnn : BitVec 12) : (encodeA h nnn).toNat = h.toNat * 4096 + nnn.toNat :=
  append_toNat h nnn

theorem encodeXK_toNat (h : BitVec 4) (x : Reg) (kk : Byte) :
    (encodeXK h x kk).toNat = h.toNat * 4096 + x.val * 256 + kk.toNat := by
  have e := append_toNat (h ++ regField x) kk
  have e' := append_toNat h (regField x)
  rw [e'] at e
  rw [regField_toNat] at e
  refine Eq.trans e ?_
  omega

theorem encodeXYN_toNat (h : BitVec 4) (x y : Reg) (n : BitVec 4) :
    (encodeXYN h x y n).toNat = h.toNat * 4096 + x.val * 256 + y.val * 16 + n.toNat := by
  have e := append_toNat (h ++ regField x ++ regField y) n
  rw [append_toNat (h ++ regField x) (regField y), append_toNat h (regField x), regField_toNat, regField_toNat] at e
  refine Eq.trans e ?_
  omega

/-- The opcode of two bytes as R52 writes it. -/
theorem opcodeOfBytes_toNat (hi lo : Byte) : (opcodeOfBytes hi lo).toNat = hi.toNat * 256 + lo.toNat :=
  append_toNat hi lo

theorem wordHi_toNat (op : Word) : (wordHi op).toNat = op.toNat / 256 := by
  have := op.isLt
  simp only [wordHi, BitVec.extractLsb'_toNat, Nat.shiftRight_eq_div_pow]; omega

theorem wordLo_toNat (op : Word) : (wordLo op).toNat = op.toNat % 256 := by
  simp only [wordLo, BitVec.extractLsb'_toNat, Nat.shiftRight_zero]

/-! ### The fields of an encoded word -/

@[simp] theorem fieldHi_encodeA (h : BitVec 4) (nnn : BitVec 12) : fieldHi (encodeA h nnn) = h := by
  apply BitVec.eq_of_toNat_eq; rw [fieldHi_toNat, encodeA_toNat]; have := nnn.isLt; omega

@[simp] theorem fieldNnn_encodeA (h : BitVec 4) (nnn : BitVec 12) : fieldNnn (encodeA h nnn) = nnn := by
  apply BitVec.eq_of_toNat_eq; rw [fieldNnn_toNat, encodeA_toNat]; have := nnn.isLt; omega

@[simp] theorem fieldHi_encodeXK (h : BitVec 4) (x : Reg) (kk : Byte) : fieldHi (encodeXK h x kk) = h := by
  apply BitVec.eq_of_toNat_eq; rw [fieldHi_toNat, encodeXK_toNat]; have := kk.isLt; omega

@[simp] theorem fieldX_encodeXK (h : BitVec 4) (x : Reg) (kk : Byte) : fieldX (encodeXK h x kk) = x := by
  apply Fin.ext; rw [fieldX_val, encodeXK_toNat]; have := kk.isLt; omega

@[simp] theorem fieldKk_encodeXK (h : BitVec 4) (x : Reg) (kk : Byte) : fieldKk (encodeXK h x kk) = kk := by
  apply BitVec.eq_of_toNat_eq; rw [fieldKk_toNat, encodeXK_toNat]; have := kk.isLt; omega

@[simp] theorem fieldHi_encodeXYN (h : BitVec 4) (x y : Reg) (n : BitVec 4) : fieldHi (encodeXYN h x y n) = h := by
  apply BitVec.eq_of_toNat_eq; rw [fieldHi_toNat, encodeXYN_toNat]; have := n.isLt; omega

@[simp] theorem fieldX_encodeXYN (h : BitVec 4) (x y : Reg) (n : BitVec 4) : fieldX (encodeXYN h x y n) = x := by
  apply Fin.ext; rw [fieldX_val, encodeXYN_toNat]; have := n.isLt; omega

@[simp] theorem fieldY_encodeXYN (h : BitVec 4) (x y : Reg) (n : BitVec 4) : fieldY (encodeXYN h x y n) = y := by
  apply Fin.ext; rw [fieldY_val, encodeXYN_toNat]; have := n.isLt; omega

@[simp] theorem fieldN_encodeXYN (h : BitVec 4) (x y : Reg) (n : BitVec 4) : fieldN (encodeXYN h x y n) = n := by
  apply BitVec.eq_of_toNat_eq; rw [fieldN_toNat, encodeXYN_toNat]; have := n.isLt; omega

/-! ### A word from its fields -/

theorem encodeA_fields (op : Word) : encodeA (fieldHi op) (fieldNnn op) = op := by
  apply BitVec.eq_of_toNat_eq; rw [encodeA_toNat, fieldHi_toNat, fieldNnn_toNat]; omega

theorem encodeXK_fields (op : Word) : encodeXK (fieldHi op) (fieldX op) (fieldKk op) = op := by
  apply BitVec.eq_of_toNat_eq; rw [encodeXK_toNat, fieldHi_toNat, fieldX_val, fieldKk_toNat]; omega

theorem encodeXYN_fields (op : Word) : encodeXYN (fieldHi op) (fieldX op) (fieldY op) (fieldN op) = op := by
  apply BitVec.eq_of_toNat_eq; rw [encodeXYN_toNat, fieldHi_toNat, fieldX_val, fieldY_val, fieldN_toNat]; omega

/-! ### The decoder, family by family (R74) -/

/-- The major family is one of sixteen. -/
theorem hi_cases (h : BitVec 4) :
    h = 0x0 ∨ h = 0x1 ∨ h = 0x2 ∨ h = 0x3 ∨ h = 0x4 ∨ h = 0x5 ∨ h = 0x6 ∨ h = 0x7 ∨ h = 0x8 ∨ h = 0x9 ∨ h = 0xA ∨
      h = 0xB ∨ h = 0xC ∨ h = 0xD ∨ h = 0xE ∨ h = 0xF := by
  bv_omega

theorem decode_hi0 (op : Word) (h : fieldHi op = 0x0) :
    decode op = if op = 0x00E0 then .ok .cls else if op = 0x00EE then .ok .ret else .ok (.sys (fieldNnn op)) := by
  unfold decode; rw [h]; rfl

theorem decode_hi1 (op : Word) (h : fieldHi op = 0x1) :
    decode op = .ok (.jp (fieldNnn op)) := by
  unfold decode; rw [h]; rfl

theorem decode_hi2 (op : Word) (h : fieldHi op = 0x2) :
    decode op = .ok (.call (fieldNnn op)) := by
  unfold decode; rw [h]; rfl

theorem decode_hi3 (op : Word) (h : fieldHi op = 0x3) :
    decode op = .ok (.seImm (fieldX op) (fieldKk op)) := by
  unfold decode; rw [h]; rfl

theorem decode_hi4 (op : Word) (h : fieldHi op = 0x4) :
    decode op = .ok (.sneImm (fieldX op) (fieldKk op)) := by
  unfold decode; rw [h]; rfl

theorem decode_hi5 (op : Word) (h : fieldHi op = 0x5) :
    decode op = if fieldN op = 0x0 then .ok (.seReg (fieldX op) (fieldY op)) else .error (.unknownOpcode op) := by
  unfold decode; rw [h]; rfl

theorem decode_hi6 (op : Word) (h : fieldHi op = 0x6) :
    decode op = .ok (.ldImm (fieldX op) (fieldKk op)) := by
  unfold decode; rw [h]; rfl

theorem decode_hi7 (op : Word) (h : fieldHi op = 0x7) :
    decode op = .ok (.addImm (fieldX op) (fieldKk op)) := by
  unfold decode; rw [h]; rfl

theorem decode_hi8 (op : Word) (h : fieldHi op = 0x8) :
    decode op = decode8 op := by
  unfold decode; rw [h]; rfl

theorem decode_hi9 (op : Word) (h : fieldHi op = 0x9) :
    decode op = if fieldN op = 0x0 then .ok (.sneReg (fieldX op) (fieldY op)) else .error (.unknownOpcode op) := by
  unfold decode; rw [h]; rfl

theorem decode_hiA (op : Word) (h : fieldHi op = 0xA) :
    decode op = .ok (.ldI (fieldNnn op)) := by
  unfold decode; rw [h]; rfl

theorem decode_hiB (op : Word) (h : fieldHi op = 0xB) :
    decode op = .ok (.jpV0 (fieldNnn op)) := by
  unfold decode; rw [h]; rfl

theorem decode_hiC (op : Word) (h : fieldHi op = 0xC) :
    decode op = .ok (.rnd (fieldX op) (fieldKk op)) := by
  unfold decode; rw [h]; rfl

theorem decode_hiD (op : Word) (h : fieldHi op = 0xD) :
    decode op = .ok (.drw (fieldX op) (fieldY op) (fieldN op).toFin) := by
  unfold decode; rw [h]; rfl

theorem decode_hiE (op : Word) (h : fieldHi op = 0xE) :
    decode op = decodeE op := by
  unfold decode; rw [h]; rfl

theorem decode_hiF (op : Word) (h : fieldHi op = 0xF) :
    decode op = decodeF op := by
  unfold decode; rw [h]; rfl

/-- Whatever the decoder rejects, it rejects by the whole word. -/
theorem decode_error {op : Word} {e : DecodeError} (h : decode op = .error e) : e = .unknownOpcode op := by
  have h8 : decode8 op = .error e → e = .unknownOpcode op := by
    intro h
    unfold decode8 at h
    simp only at h
    split_ifs at h
    cases h; rfl
  have hE : decodeE op = .error e → e = .unknownOpcode op := by
    intro h
    unfold decodeE at h
    simp only at h
    split_ifs at h
    cases h; rfl
  have hF : decodeF op = .error e → e = .unknownOpcode op := by
    intro h
    unfold decodeF at h
    simp only at h
    split_ifs at h
    cases h; rfl
  rcases hi_cases (fieldHi op) with q | q | q | q | q | q | q | q | q | q | q | q | q | q | q | q
  · rw [decode_hi0 op q] at h; split_ifs at h
  · rw [decode_hi1 op q] at h; cases h
  · rw [decode_hi2 op q] at h; cases h
  · rw [decode_hi3 op q] at h; cases h
  · rw [decode_hi4 op q] at h; cases h
  · rw [decode_hi5 op q] at h; split_ifs at h; cases h; rfl
  · rw [decode_hi6 op q] at h; cases h
  · rw [decode_hi7 op q] at h; cases h
  · rw [decode_hi8 op q] at h; exact h8 h
  · rw [decode_hi9 op q] at h; split_ifs at h; cases h; rfl
  · rw [decode_hiA op q] at h; cases h
  · rw [decode_hiB op q] at h; cases h
  · rw [decode_hiC op q] at h; cases h
  · rw [decode_hiD op q] at h; cases h
  · rw [decode_hiE op q] at h; exact hE h
  · rw [decode_hiF op q] at h; exact hF h

/-- The two bytes of a word, high byte first, are the word (20_memory.md R52). -/
@[simp] theorem opcodeOfBytes_halves (op : Word) : opcodeOfBytes (wordHi op) (wordLo op) = op := by
  apply BitVec.eq_of_toNat_eq; rw [opcodeOfBytes_toNat, wordHi_toNat, wordLo_toNat]; omega

/-- Decoding the bytes of a word is decoding the word. -/
theorem decodeBytes_halves (op : Word) (rest : List Byte) :
    decodeBytes (wordHi op :: wordLo op :: rest) = (decode op).map (fun i => (i, rest)) := by
  rw [decodeBytes, opcodeOfBytes_halves]
  cases decode op <;> rfl

end Sys2Proof
end

