-- ==== Sys2Proof/Laws/Framebuffer.lean ====
section
/-! SUPPORT. The framebuffer: one pixel after a flip, a clear screen, and everything a sprite draw does (45_display.md
R161, R162): first for dimensions that hold a sprite without overlap, then for any. -/

namespace Sys2Proof.Machine

variable {W H : Nat}

@[simp] theorem Framebuffer.pixel_zeroed (r c : Nat) : (Framebuffer.zeroed W H).pixel r c = false := by
  unfold Framebuffer.pixel Pixels.get Framebuffer.zeroed
  split <;> simp

/-- A flip changes the pixel it names and no other. -/
theorem Pixels.get_flip (px : Pixels W H) {r c : Nat} (hr : r < H) (hc : c < W) (r' c' : Nat) :
    Pixels.get (Pixels.flip px r c) r' c' =
      (Pixels.get px r' c' ^^ (decide (r = r') && decide (c = c'))) := by
  unfold Pixels.get Pixels.flip
  simp only [hr, dite_true]
  by_cases h : r' < H
  · simp only [h, dite_true]
    by_cases e : r = r'
    · subst e
      simp [BitVec.getLsbD_twoPow, hc]
    · simp [e]
  · have : r ≠ r' := by omega
    simp [h, this]

/-- Two framebuffers with the same pixels are the same. -/
theorem Pixels.ext_of_get {px px' : Pixels W H}
    (h : ∀ r c, r < H → c < W → Pixels.get px r c = Pixels.get px' r c) : px = px' := by
  apply Vector.ext
  intro r hr
  apply BitVec.eq_of_getLsbD_eq
  intro c hc
  have := h r c hr hc
  simpa [Pixels.get, hr] using this

/-! ### One sprite row -/

/-- Columns below `m` of sprite row byte `b` put a 1 bit on column `c`. -/
def rowBits (W x0 : Nat) (b : Byte) (m c : Nat) : Bool :=
  (List.range m).any fun j => b.getLsbD (7 - j) && decide ((x0 + j) % W = c)

theorem drawBits_spec (x0 y0 r : Nat) (b : Byte) (d : Pixels W H × Bool) (hH : 0 < H) (m : Nat) (hm : m ≤ 8)
    (hW : 8 ≤ W) :
    (∀ r' c', Pixels.get ((List.range m).foldl (drawBit x0 y0 r b) d).1 r' c' =
      (Pixels.get d.1 r' c' ^^ (decide ((y0 + r) % H = r') && rowBits W x0 b m c'))) ∧
    ((List.range m).foldl (drawBit x0 y0 r b) d).2 =
      (d.2 || (List.range m).any fun j =>
        b.getLsbD (7 - j) && Pixels.get d.1 ((y0 + r) % H) ((x0 + j) % W)) := by
  induction m with
  | zero => simp [rowBits]
  | succ m ih =>
    obtain ⟨ih1, ih2⟩ := ih (by omega)
    have hfresh : rowBits W x0 b m ((x0 + m) % W) = false := by
      simp only [rowBits, List.any_eq_false, List.mem_range, Bool.and_eq_true, decide_eq_true_eq, not_and]
      intro j hj _ e
      have : x0 + j ≡ x0 + m [MOD W] := e
      have := Nat.ModEq.add_left_cancel' x0 this
      have := Nat.ModEq.eq_of_lt_of_lt this (by omega) (by omega)
      omega
    simp only [List.range_succ, List.foldl_append, List.foldl_cons, List.foldl_nil]
    generalize hD : (List.range m).foldl (drawBit x0 y0 r b) d = D at ih1 ih2
    unfold drawBit
    by_cases hb : b.getLsbD (7 - m) = true
    · have hrow : (y0 + r) % H < H := Nat.mod_lt _ hH
      have hcol : (x0 + m) % W < W := Nat.mod_lt _ (by omega)
      simp only [hb, if_true]
      refine ⟨fun r' c' => ?_, ?_⟩
      · rw [Pixels.get_flip _ hrow hcol, ih1]
        have e : rowBits W x0 b (m + 1) c' = (rowBits W x0 b m c' || decide ((x0 + m) % W = c')) := by
          simp [rowBits, List.range_succ, hb]
        rw [e]
        by_cases h1 : (y0 + r) % H = r'
        · by_cases h2 : (x0 + m) % W = c'
          · subst h2; simp [h1, hfresh]
          · simp [h1, h2]
        · simp [h1]
      · rw [ih2, ih1]
        simp [hfresh, hb, Bool.or_assoc]
    · simp only [hb]
      refine ⟨fun r' c' => ?_, ?_⟩
      · simp [ih1, rowBits, List.range_succ, hb]
      · simp [ih2, hb]

/-! ### A whole sprite -/

/-- The sprite `bytes`, its first byte sprite row `k`, puts a 1 bit on the pixel at row `r`, column `c`. -/
def spriteBits (W H x0 y0 : Nat) : Nat → List Byte → Nat → Nat → Bool
  | _, [], _, _ => false
  | k, b :: bs, r, c =>
    (decide ((y0 + k) % H = r) && rowBits W x0 b 8 c) || spriteBits W H x0 y0 (k + 1) bs r c

/-- A later sprite row never lies on the screen row of an earlier one. -/
theorem spriteBits_of_other_row {x0 y0 : Nat} (bs : List Byte) : ∀ k k', k' < k → k + bs.length ≤ k' + H →
    ∀ c, spriteBits W H x0 y0 k bs ((y0 + k') % H) c = false := by
  induction bs with
  | nil => intros; rfl
  | cons b bs ih =>
    intro k k' hk hlen c
    simp only [List.length_cons] at hlen
    have hne : (y0 + k) % H ≠ (y0 + k') % H := by
      intro e
      have e : y0 + k' ≡ y0 + k [MOD H] := e.symm
      have e := Nat.ModEq.add_left_cancel' y0 e
      have := (Nat.modEq_iff_dvd' (by omega : k' ≤ k)).1 e
      have := Nat.le_of_dvd (by omega) this
      omega
    rw [spriteBits, ih (k + 1) k' (by omega) (by omega)]
    simp [hne]

/-- What the outer loop does, from any framebuffer and any collision so far. -/
theorem drawRows_spec (x0 y0 : Nat) (hH : 0 < H) (hW : 8 ≤ W) (bs : List Byte) :
    ∀ (k : Nat) (d : Pixels W H × Bool), bs.length ≤ H →
    (∀ r c, Pixels.get (drawRows x0 y0 k bs d).1 r c =
      (Pixels.get d.1 r c ^^ spriteBits W H x0 y0 k bs r c)) ∧
    ((drawRows x0 y0 k bs d).2 = true ↔
      d.2 = true ∨ ∃ r c, spriteBits W H x0 y0 k bs r c = true ∧ Pixels.get d.1 r c = true) := by
  induction bs with
  | nil => intro k d _; simp [drawRows, spriteBits]
  | cons b bs ih =>
    intro k d hlen
    simp only [List.length_cons] at hlen
    obtain ⟨p1, p2⟩ := drawBits_spec x0 y0 k b d hH 8 (by omega) hW
    obtain ⟨q1, q2⟩ := ih (k + 1) (drawRow x0 y0 k b d) (by omega)
    have hother : ∀ c, spriteBits W H x0 y0 (k + 1) bs ((y0 + k) % H) c = false :=
      spriteBits_of_other_row bs (k + 1) k (by omega) (by omega)
    refine ⟨fun r c => ?_, ?_⟩
    · rw [drawRows, q1, drawRow, p1, spriteBits]
      by_cases h : (y0 + k) % H = r
      · subst h; simp [hother]
      · simp [h]
    · rw [drawRows, q2, drawRow, p2]
      constructor
      · rintro (h | ⟨r, c, h1, h2⟩)
        · rcases Bool.or_eq_true_iff.1 h with h | h
          · exact .inl h
          · simp only [List.any_eq_true, List.mem_range, Bool.and_eq_true] at h
            obtain ⟨j, hj, hb, hp⟩ := h
            refine .inr ⟨_, _, ?_, hp⟩
            rw [spriteBits]
            simp only [decide_true, Bool.true_and, Bool.or_eq_true, rowBits, List.any_eq_true, List.mem_range]
            exact .inl ⟨j, hj, by simp [hb]⟩
        · refine .inr ⟨r, c, by rw [spriteBits, h1, Bool.or_true], ?_⟩
          rw [p1] at h2
          by_cases h : (y0 + k) % H = r
          · subst h; rw [hother] at h1; simp at h1
          · simpa [h] using h2
      · rintro (h | ⟨r, c, h1, h2⟩)
        · exact .inl (by simp [h])
        · rw [spriteBits, Bool.or_eq_true] at h1
          rcases h1 with h1 | h1
          · left
            simp only [Bool.and_eq_true, decide_eq_true_eq, rowBits, List.any_eq_true, List.mem_range] at h1
            obtain ⟨rfl, j, hj, hb, rfl⟩ := h1
            simp only [Bool.or_eq_true, List.any_eq_true, List.mem_range, Bool.and_eq_true]
            exact .inr ⟨j, hj, hb, h2⟩
          · refine .inr ⟨r, c, h1, ?_⟩
            rw [p1]
            by_cases h : (y0 + k) % H = r
            · subst h; rw [hother] at h1; simp at h1
            · simpa [h] using h2

theorem spriteBits_iff {x0 y0 : Nat} (bs : List Byte) : ∀ k r c,
    spriteBits W H x0 y0 k bs r c = true ↔
      ∃ i j, i < bs.length ∧ j < 8 ∧ ((bs[i]?).getD 0).getLsbD (7 - j) = true ∧
        (y0 + (k + i)) % H = r ∧ (x0 + j) % W = c := by
  induction bs with
  | nil => intro k r c; simp [spriteBits]
  | cons b bs ih =>
    intro k r c
    rw [spriteBits, Bool.or_eq_true, ih]
    simp only [Bool.and_eq_true, decide_eq_true_eq, rowBits, List.any_eq_true, List.mem_range]
    constructor
    · rintro (⟨rfl, j, hj, hb, rfl⟩ | ⟨i, j, hi, hj, hb, rfl, rfl⟩)
      · exact ⟨0, j, by simp, hj, by simpa using hb, rfl, rfl⟩
      · exact ⟨i + 1, j, by simpa using hi, hj, by simpa using hb, by congr 1; omega, rfl⟩
    · rintro ⟨i, j, hi, hj, hb, rfl, rfl⟩
      cases i with
      | zero => exact .inl ⟨rfl, j, hj, by simpa using hb, rfl⟩
      | succ i =>
        exact .inr ⟨i, j, by simpa using hi, hj, by simpa using hb, by congr 1; omega, rfl⟩

/-- EVERYTHING A SPRITE DRAW DOES (45_display.md R162): each pixel is XORed with the sprite bit that lands on it, and the
collision says whether a set pixel received one. -/
theorem drawSprite_spec (px : Pixels W H) (x0 y0 : Nat) (bs : List Byte) (hW : 8 ≤ W) (hH : 0 < H)
    (hlen : bs.length ≤ H) :
    (∀ r c, Pixels.get (drawSprite px x0 y0 bs).1 r c =
      (Pixels.get px r c ^^ spriteBits W H x0 y0 0 bs r c)) ∧
    ((drawSprite px x0 y0 bs).2 = true ↔
      ∃ r c, spriteBits W H x0 y0 0 bs r c = true ∧ Pixels.get px r c = true) := by
  obtain ⟨h1, h2⟩ := drawRows_spec x0 y0 hH hW bs 0 (px, false) hlen
  exact ⟨h1, by simpa [drawSprite] using h2⟩

/-! ### Any dimensions: a sprite is a list of flips, one for each of its 1 bits in order -/

/-- One flip, and the collision so far. -/
def flipCell (d : Pixels W H × Bool) (p : Nat × Nat) : Pixels W H × Bool :=
  (Pixels.flip d.1 p.1 p.2, d.2 || Pixels.get d.1 p.1 p.2)

/-- The pixels, row first, that the 1 bits of sprite row `k` land on. -/
def rowCells (W H x0 y0 k : Nat) (b : Byte) : List (Nat × Nat) :=
  ((List.range 8).filter fun j => b.getLsbD (7 - j)).map fun j => ((y0 + k) % H, (x0 + j) % W)

/-- The pixels that the 1 bits of the sprite land on, its first byte being sprite row `k`. -/
def spriteCells (W H x0 y0 : Nat) : Nat → List Byte → List (Nat × Nat)
  | _, [] => []
  | k, b :: bs => rowCells W H x0 y0 k b ++ spriteCells W H x0 y0 (k + 1) bs

theorem drawRow_eq_flips (x0 y0 k : Nat) (b : Byte) (d : Pixels W H × Bool) :
    drawRow x0 y0 k b d = (rowCells W H x0 y0 k b).foldl flipCell d := by
  unfold drawRow rowCells
  generalize List.range 8 = l
  induction l generalizing d with
  | nil => rfl
  | cons j l ih =>
    by_cases hb : b.getLsbD (7 - j) = true
    · simp only [List.foldl_cons, List.filter_cons, hb, if_true, List.map_cons, ih]
      congr 1
      simp [drawBit, hb, flipCell]
    · simp only [List.foldl_cons, List.filter_cons, hb, ih]
      congr 1
      simp [drawBit, hb]

theorem drawRows_eq_flips (x0 y0 : Nat) (bs : List Byte) : ∀ (k : Nat) (d : Pixels W H × Bool),
    drawRows x0 y0 k bs d = (spriteCells W H x0 y0 k bs).foldl flipCell d := by
  induction bs with
  | nil => intro k d; rfl
  | cons b bs ih =>
    intro k d
    rw [drawRows, ih, drawRow_eq_flips, spriteCells, List.foldl_append]

theorem spriteCells_inside {x0 y0 : Nat} (hW : 1 ≤ W) (hH : 1 ≤ H) (bs : List Byte) : ∀ k,
    ∀ p ∈ spriteCells W H x0 y0 k bs, p.1 < H ∧ p.2 < W := by
  induction bs with
  | nil => intro k p hp; simp [spriteCells] at hp
  | cons b bs ih =>
    intro k p hp
    rcases List.mem_append.1 hp with hp | hp
    · obtain ⟨j, -, rfl⟩ := List.mem_map.1 hp
      exact ⟨Nat.mod_lt _ hH, Nat.mod_lt _ hW⟩
    · exact ih (k + 1) p hp

/-- What a list of flips does: a pixel changes when it is named an odd number of times, and a collision is a set pixel
that is named or any pixel named twice. -/
theorem flips_spec (cells : List (Nat × Nat)) : ∀ d : Pixels W H × Bool, (∀ p ∈ cells, p.1 < H ∧ p.2 < W) →
    (∀ r c, Pixels.get (cells.foldl flipCell d).1 r c =
      (Pixels.get d.1 r c ^^ decide (cells.count (r, c) % 2 = 1))) ∧
    ((cells.foldl flipCell d).2 = true ↔
      d.2 = true ∨ ∃ r c, (1 ≤ cells.count (r, c) ∧ Pixels.get d.1 r c = true) ∨ 2 ≤ cells.count (r, c)) := by
  induction cells with
  | nil => intro d _; simp
  | cons p ps ih =>
    intro d hin
    obtain ⟨hp1, hp2⟩ := hin p (by simp)
    obtain ⟨i1, i2⟩ := ih (flipCell d p) fun q hq => hin q (by simp [hq])
    have hget : ∀ r c, Pixels.get (flipCell d p).1 r c = (Pixels.get d.1 r c ^^ decide (p = (r, c))) := by
      intro r c
      rw [flipCell, Pixels.get_flip _ hp1 hp2]
      congr 1
      rw [Bool.eq_iff_iff]
      simp [Prod.ext_iff]
    refine ⟨fun r c => ?_, ?_⟩
    · rw [List.foldl_cons, i1, hget, List.count_cons]
      by_cases h : p = (r, c)
      · by_cases h2 : ps.count (r, c) % 2 = 1
        · have : ¬ (ps.count (r, c) + 1) % 2 = 1 := by omega
          simp [h, h2, this]
        · have : (ps.count (r, c) + 1) % 2 = 1 := by omega
          simp [h, h2, this]
      · simp [h]
    · rw [List.foldl_cons, i2]
      simp only [hget, List.count_cons]
      constructor
      · rintro (h | ⟨r, c, h⟩)
        · rcases Bool.or_eq_true_iff.1 h with h | h
          · exact .inl h
          · exact .inr ⟨p.1, p.2, .inl ⟨by simp, h⟩⟩
        · refine .inr ⟨r, c, ?_⟩
          by_cases e : p = (r, c)
          · subst e
            simp only [beq_self_eq_true, if_true]
            exact .inr (by omega)
          · simp only [beq_iff_eq, e, if_false, Nat.add_zero]
            simpa [e] using h
      · rintro (h | ⟨r, c, h⟩)
        · exact .inl (by simp [flipCell, h])
        · by_cases e : p = (r, c)
          · subst e
            by_cases hd : Pixels.get d.1 r c = true
            · exact .inl (by simp [flipCell, hd])
            · refine .inr ⟨r, c, .inl ⟨?_, by simp [hd]⟩⟩
              rcases h with ⟨-, h⟩ | h
              · exact absurd h hd
              · simp only [beq_self_eq_true, if_true] at h
                omega
          · refine .inr ⟨r, c, ?_⟩
            simp only [beq_iff_eq, e, if_false, Nat.add_zero] at h
            simpa [e] using h

/-- EVERYTHING A SPRITE DRAW DOES ON ANY SCREEN (00_scope.md R7, 45_display.md R162). -/
theorem drawSprite_flips (px : Pixels W H) (x0 y0 : Nat) (bs : List Byte) (hW : 1 ≤ W) (hH : 1 ≤ H) :
    (∀ r c, Pixels.get (drawSprite px x0 y0 bs).1 r c =
      (Pixels.get px r c ^^ decide ((spriteCells W H x0 y0 0 bs).count (r, c) % 2 = 1))) ∧
    ((drawSprite px x0 y0 bs).2 = true ↔
      ∃ r c, (1 ≤ (spriteCells W H x0 y0 0 bs).count (r, c) ∧ Pixels.get px r c = true) ∨
        2 ≤ (spriteCells W H x0 y0 0 bs).count (r, c)) := by
  obtain ⟨h1, h2⟩ := flips_spec (spriteCells W H x0 y0 0 bs) (px, false) (spriteCells_inside hW hH bs 0)
  unfold drawSprite
  rw [drawRows_eq_flips]
  exact ⟨h1, by simpa using h2⟩

/-- How often the sprite in memory names a pixel. -/
theorem count_spriteCells (s : State) (W H x0 y0 r c : Nat) (n : Nat) : ∀ a k,
    (spriteCells W H x0 y0 k (s.bytesAt a n)).count (r, c) =
      ((List.range n).map fun i => (List.range 8).countP fun j =>
        (s.byteAt (a + i)).getLsbD (7 - j) &&
          (decide ((y0 + (k + i)) % H = r) && decide ((x0 + j) % W = c))).sum := by
  induction n with
  | zero => intro a k; rfl
  | succ n ih =>
    intro a k
    have e : s.bytesAt a (n + 1) = s.byteAt a :: s.bytesAt (a + 1) n := rfl
    rw [e, spriteCells, List.count_append, ih, List.range_succ_eq_map (n := n), List.map_cons,
      List.sum_cons, List.map_map]
    congr 1
    · rw [rowCells, List.count, List.countP_map, List.countP_filter]
      congr 1
      funext j
      rw [Bool.eq_iff_iff]
      simp only [Function.comp, Bool.and_eq_true, beq_iff_eq, Prod.mk.injEq, decide_eq_true_eq, Nat.add_zero]
      tauto
    · congr 1
      apply List.map_congr_left
      intro i _
      simp only [Function.comp, Nat.succ_eq_add_one, Nat.add_assoc, Nat.add_comm 1 i]

/-! ### The framebuffer of a block -/

@[simp] theorem Framebuffer.zeroed_width (W H : Nat) : (Framebuffer.zeroed W H).width = W := rfl
@[simp] theorem Framebuffer.zeroed_height (W H : Nat) : (Framebuffer.zeroed W H).height = H := rfl

@[simp] theorem Framebuffer.clear_width (fb : Framebuffer) : fb.clear.width = fb.width := rfl
@[simp] theorem Framebuffer.clear_height (fb : Framebuffer) : fb.clear.height = fb.height := rfl
@[simp] theorem Framebuffer.pixel_clear (fb : Framebuffer) (r c : Nat) : fb.clear.pixel r c = false :=
  Framebuffer.pixel_zeroed r c

@[simp] theorem Framebuffer.draw_width (fb : Framebuffer) (x0 y0 : Nat) (bs : List Byte) :
    (fb.draw x0 y0 bs).1.width = fb.width := rfl
@[simp] theorem Framebuffer.draw_height (fb : Framebuffer) (x0 y0 : Nat) (bs : List Byte) :
    (fb.draw x0 y0 bs).1.height = fb.height := rfl

/-- Framebuffers of the same dimensions whose pixels agree are equal. -/
theorem Framebuffer.ext_of_pixel {fb fb' : Framebuffer} (hw : fb'.width = fb.width) (hh : fb'.height = fb.height)
    (h : ∀ r c, r < fb.height → c < fb.width → fb'.pixel r c = fb.pixel r c) : fb' = fb := by
  obtain ⟨W, H, px⟩ := fb
  obtain ⟨W', H', px'⟩ := fb'
  cases hw
  cases hh
  exact congrArg _ (Pixels.ext_of_get fun r c hr hc => h r c hr hc)

/-- A sprite on a screen on which no two of its bits meet (45_display.md R162). -/
theorem Framebuffer.draw_spec (fb : Framebuffer) (x0 y0 : Nat) (bs : List Byte) (hW : 8 ≤ fb.width)
    (hH : 0 < fb.height) (hlen : bs.length ≤ fb.height) :
    (∀ r c, (fb.draw x0 y0 bs).1.pixel r c = (fb.pixel r c ^^ spriteBits fb.width fb.height x0 y0 0 bs r c)) ∧
    ((fb.draw x0 y0 bs).2 = true ↔
      ∃ r c, spriteBits fb.width fb.height x0 y0 0 bs r c = true ∧ fb.pixel r c = true) :=
  drawSprite_spec fb.pixels x0 y0 bs hW hH hlen

/-- The pixels of a whole screen that a sprite in memory hits, and how often (45_display.md R162, R163). -/
theorem count_spriteCells_eq_hits (s : State) (x0 y0 n r c : Nat) :
    (spriteCells s.fb.width s.fb.height x0 y0 0 (s.bytesAt s.i.toNat n)).count (r, c) = spriteHits s x0 y0 n r c := by
  rw [count_spriteCells]
  simp only [Nat.zero_add, spriteHits]

/-- A sprite in memory drawn on any screen: each pixel is flipped as often as it is hit, and the collision is a set pixel
that is hit or any pixel hit twice (00_scope.md R7, 45_display.md R162). -/
theorem State.draw_flips (s : State) (x0 y0 n : Nat) (hW : 1 ≤ s.fb.width) (hH : 1 ≤ s.fb.height) :
    (∀ r c, (s.fb.draw x0 y0 (s.bytesAt s.i.toNat n)).1.pixel r c =
      (s.fb.pixel r c ^^ decide (spriteHits s x0 y0 n r c % 2 = 1))) ∧
    ((s.fb.draw x0 y0 (s.bytesAt s.i.toNat n)).2 = true ↔
      ∃ r c, (1 ≤ spriteHits s x0 y0 n r c ∧ s.fb.pixel r c = true) ∨ 2 ≤ spriteHits s x0 y0 n r c) := by
  simp only [← count_spriteCells_eq_hits]
  exact drawSprite_flips s.fb.pixels x0 y0 (s.bytesAt s.i.toNat n) hW hH

/-- A pixel that is hit exists. -/
theorem spriteHits_inside {s : State} {x0 y0 n r c : Nat} (hW : 1 ≤ s.fb.width) (hH : 1 ≤ s.fb.height)
    (h : 1 ≤ spriteHits s x0 y0 n r c) : r < s.fb.height ∧ c < s.fb.width := by
  rw [← count_spriteCells_eq_hits] at h
  exact spriteCells_inside hW hH _ 0 (r, c) (List.count_pos_iff.1 h)

end Sys2Proof.Machine
end

