-- ==== Sys2Proof/Laws/Memory.lean ====
section
/-! SUPPORT. Memory: a read after a write, the canonical form kept by every operation, equal reads make equal memories,
and what the checked accesses answer (20_memory.md R50, R51, R60). -/

namespace Sys2Proof.Machine

variable {base : Nat}

/-! ### One byte -/

@[simp] theorem Memory.read_nil (a : Nat) : Memory.read base [] a = Memory.initial base a := rfl

theorem Memory.read_cons (a a' : Nat) (b : Byte) (m : Memory) :
    Memory.read base ((a', b) :: m) a = if a = a' then b else Memory.read base m a := rfl

/-- An address below every listed one reads as the reset contents. -/
theorem Memory.read_of_all_above {m : Memory} {a : Nat} (h : ∀ c ∈ m, a < c.1) :
    Memory.read base m a = Memory.initial base a := by
  induction m with
  | nil => rfl
  | cons c m ih =>
    have hc := h c (by simp)
    rw [show c = (c.1, c.2) from rfl, Memory.read_cons, if_neg (by omega), ih (fun d hd => h d (by simp [hd]))]

theorem Memory.wf_cons {a : Nat} {b : Byte} {m : Memory} :
    Memory.wf base ((a, b) :: m) = true ↔
      a < Config.memSize ∧ b ≠ Memory.initial base a ∧ (∀ c ∈ m, a < c.1) ∧ Memory.wf base m = true := by
  simp [Memory.wf, and_assoc]

theorem Memory.read_put {m : Memory} {a : Nat} {b : Byte} (h : Memory.read base m a = Memory.initial base a) (a' : Nat) :
    Memory.read base (Memory.cons base a b m) a' = if a' = a then b else Memory.read base m a' := by
  unfold Memory.cons
  split
  · next hb => split
               · next e => rw [e, h, hb]
               · rfl
  · rfl

/-- Reading after writing one byte (20_memory.md R60). -/
theorem Memory.read_write {m : Memory} (h : Memory.wf base m = true) (a : Nat) (b : Byte) (a' : Nat) :
    Memory.read base (Memory.write base m a b) a' = if a' = a then b else Memory.read base m a' := by
  induction m with
  | nil => exact Memory.read_put rfl a'
  | cons c m ih =>
    obtain ⟨d, w⟩ := c
    obtain ⟨-, -, habove, hm⟩ := Memory.wf_cons.1 h
    unfold Memory.write
    split
    · next hlt =>
      refine Memory.read_put (Memory.read_of_all_above ?_) a'
      rintro e he
      rcases List.mem_cons.1 he with rfl | he
      · exact hlt
      · exact lt_trans hlt (habove e he)
    · split
      · next heq =>
        subst heq
        rw [Memory.read_put (Memory.read_of_all_above habove), Memory.read_cons]
        split <;> rfl
      · next hne hne' =>
        rw [Memory.read_cons, Memory.read_cons, ih hm]
        by_cases h1 : a' = d
        · have : a' ≠ a := by omega
          simp [h1]; omega
        · simp [h1]

theorem Memory.wf_put {m : Memory} {a : Nat} {b : Byte} (ha : a < Config.memSize) (habove : ∀ c ∈ m, a < c.1)
    (hm : Memory.wf base m = true) : Memory.wf base (Memory.cons base a b m) = true := by
  unfold Memory.cons
  split
  · exact hm
  · next hb => exact Memory.wf_cons.2 ⟨ha, hb, habove, hm⟩

theorem Memory.mem_cons_addr {m : Memory} {a : Nat} {b : Byte} {c : Host.Cell} (h : c ∈ Memory.cons base a b m) :
    c.1 = a ∨ c ∈ m := by
  unfold Memory.cons at h
  split at h
  · exact .inr h
  · rcases List.mem_cons.1 h with rfl | h
    · exact .inl rfl
    · exact .inr h

theorem Memory.mem_write_addr {m : Memory} {a : Nat} {b : Byte} {c : Host.Cell} (h : c ∈ Memory.write base m a b) :
    c.1 = a ∨ c ∈ m := by
  induction m with
  | nil => exact Memory.mem_cons_addr h
  | cons d m ih =>
    unfold Memory.write at h
    split at h
    · exact Memory.mem_cons_addr h
    · split at h
      · rcases Memory.mem_cons_addr h with h | h
        · exact .inl h
        · exact .inr (List.mem_cons_of_mem _ h)
      · rcases List.mem_cons.1 h with rfl | h
        · exact .inr (by simp)
        · rcases ih h with h | h
          · exact .inl h
          · exact .inr (List.mem_cons_of_mem _ h)

/-- Writing a byte that exists keeps the canonical form. -/
theorem Memory.wf_write {m : Memory} (h : Memory.wf base m = true) {a : Nat} (ha : a < Config.memSize) (b : Byte) :
    Memory.wf base (Memory.write base m a b) = true := by
  induction m with
  | nil => exact Memory.wf_put ha (by simp) rfl
  | cons c m ih =>
    obtain ⟨d, w⟩ := c
    obtain ⟨hd, hw, habove, hm⟩ := Memory.wf_cons.1 h
    unfold Memory.write
    split
    · next hlt =>
      refine Memory.wf_put ha ?_ h
      rintro e he
      rcases List.mem_cons.1 he with rfl | he
      · exact hlt
      · exact lt_trans hlt (habove e he)
    · split
      · next heq => subst heq; exact Memory.wf_put ha habove hm
      · refine Memory.wf_cons.2 ⟨hd, hw, ?_, ih hm⟩
        intro e he
        rcases Memory.mem_write_addr he with he | he
        · omega
        · exact habove e he

theorem Memory.read_ne_initial_of_mem {m : Memory} (h : Memory.wf base m = true) {c : Host.Cell} (hc : c ∈ m) :
    Memory.read base m c.1 = c.2 ∧ c.2 ≠ Memory.initial base c.1 := by
  induction m with
  | nil => simp at hc
  | cons d m ih =>
    obtain ⟨a, b⟩ := d
    obtain ⟨-, hb, habove, hm⟩ := Memory.wf_cons.1 h
    rcases List.mem_cons.1 hc with rfl | hc
    · exact ⟨by simp [Memory.read_cons], hb⟩
    · have := habove c hc
      rw [Memory.read_cons, if_neg (by omega)]
      exact ih hm hc

/-- Equal reads make equal memories: the canonical form is one list per contents. -/
theorem Memory.ext_of_read {m m' : Memory} (h : Memory.wf base m = true) (h' : Memory.wf base m' = true)
    (hr : ∀ a, Memory.read base m a = Memory.read base m' a) : m = m' := by
  induction m generalizing m' with
  | nil =>
    cases m' with
    | nil => rfl
    | cons d m' =>
      have hd := Memory.read_ne_initial_of_mem h' (List.mem_cons_self (a := d) (l := m'))
      exact absurd (hd.1.symm.trans (hr d.1).symm) hd.2
  | cons c m ih =>
    obtain ⟨a, b⟩ := c
    obtain ⟨-, hb, habove, hm⟩ := Memory.wf_cons.1 h
    cases m' with
    | nil =>
      have hc := Memory.read_ne_initial_of_mem h (List.mem_cons_self (a := (a, b)) (l := m))
      exact absurd (hc.1.symm.trans (hr a)) hc.2
    | cons d m' =>
      obtain ⟨a', b'⟩ := d
      obtain ⟨-, hb', habove', hm'⟩ := Memory.wf_cons.1 h'
      have e1 : Memory.read base m a = Memory.initial base a := Memory.read_of_all_above habove
      have e2 : Memory.read base m' a' = Memory.initial base a' := Memory.read_of_all_above habove'
      have key : a = a' := by
        rcases lt_trichotomy a a' with hlt | heq | hgt
        · have := hr a
          rw [Memory.read_cons, if_pos rfl, Memory.read_of_all_above] at this
          · exact absurd this hb
          · intro e he
            rcases List.mem_cons.1 he with rfl | he
            · exact hlt
            · exact lt_trans hlt (habove' e he)
        · exact heq
        · have := hr a'
          rw [Memory.read_cons (a := a') (a' := a'), if_pos rfl, Memory.read_of_all_above] at this
          · exact absurd this.symm hb'
          · intro e he
            rcases List.mem_cons.1 he with rfl | he
            · exact hgt
            · exact lt_trans hgt (habove e he)
      subst key
      have hbb : b = b' := by simpa [Memory.read_cons] using hr a
      subst hbb
      congr 1
      refine ih hm hm' fun x => ?_
      by_cases hx : x = a
      · rw [hx, e1, e2]
      · simpa [Memory.read_cons, hx] using hr x

/-! ### Ranges -/

@[simp] theorem Memory.length_readBytes (m : Memory) (n : Nat) : ∀ a, (Memory.readBytes base m a n).length = n := by
  induction n with
  | zero => intro a; rfl
  | succ n ih => intro a; simp [Memory.readBytes, ih]

theorem Memory.readBytes_getElem? (m : Memory) (n : Nat) : ∀ a k,
    (Memory.readBytes base m a n)[k]? = if k < n then some (Memory.read base m (a + k)) else none := by
  induction n with
  | zero => intro a k; simp [Memory.readBytes]
  | succ n ih =>
    intro a k
    cases k with
    | zero => simp [Memory.readBytes]
    | succ k => simp [Memory.readBytes, ih, Nat.add_assoc, Nat.add_comm 1 k]

/-- Writing a range that exists keeps the canonical form. -/
theorem Memory.wf_writeBytes {m : Memory} (h : Memory.wf base m = true) (bs : List Byte) :
    ∀ a, a + bs.length ≤ Config.memSize → Memory.wf base (Memory.writeBytes base m a bs) = true := by
  induction bs with
  | nil => intro a _; exact h
  | cons b bs ih =>
    intro a ha
    simp only [List.length_cons] at ha
    exact Memory.wf_write (ih (a + 1) (by omega)) (by omega) b

/-- Reading after writing a range: the bytes written inside it, the bytes before outside it. -/
theorem Memory.read_writeBytes {m : Memory} (h : Memory.wf base m = true) (bs : List Byte) :
    ∀ a, a + bs.length ≤ Config.memSize → ∀ a',
      Memory.read base (Memory.writeBytes base m a bs) a' =
        if a ≤ a' then (bs[a' - a]?).getD (Memory.read base m a') else Memory.read base m a' := by
  induction bs with
  | nil => intro a _ a'; simp [Memory.writeBytes]
  | cons b bs ih =>
    intro a ha a'
    simp only [List.length_cons] at ha
    rw [Memory.writeBytes, Memory.read_write (Memory.wf_writeBytes h bs (a + 1) (by omega)), ih (a + 1) (by omega)]
    by_cases h1 : a' = a
    · subst h1; simp
    · by_cases h2 : a ≤ a'
      · obtain ⟨k, hk⟩ : ∃ k, a' - a = k + 1 := ⟨a' - a - 1, by omega⟩
        have h3 : a + 1 ≤ a' := by omega
        have h4 : a' - (a + 1) = k := by omega
        simp [h1, h2, h3, hk, h4]
      · have h3 : ¬ a + 1 ≤ a' := by omega
        simp [h1, h2, h3]

/-! ### The memory of a state -/

/-- Reading after storing a range that exists. -/
theorem State.byteAt_store {s : State} (h : s.memWf) {a : Nat} {bs : List Byte} (ha : a + bs.length ≤ Config.memSize)
    (a' : Nat) :
    (s.store a bs).byteAt a' = if a ≤ a' then (bs[a' - a]?).getD (s.byteAt a') else s.byteAt a' :=
  Memory.read_writeBytes h bs a ha a'

/-- A store leaves every byte outside its range alone. -/
theorem State.byteAt_store_outside {s : State} (h : s.memWf) {a : Nat} {bs : List Byte}
    (ha : a + bs.length ≤ Config.memSize) {a' : Nat} (ho : a' < a ∨ a + bs.length ≤ a') :
    (s.store a bs).byteAt a' = s.byteAt a' := by
  rw [State.byteAt_store h ha]
  split
  · rw [List.getElem?_eq_none (by omega), Option.getD_none]
  · rfl

/-- Storing a range that exists keeps the canonical form. -/
theorem State.memWf_store {s : State} (h : s.memWf) {a : Nat} {bs : List Byte} (ha : a + bs.length ≤ Config.memSize) :
    (s.store a bs).memWf :=
  Memory.wf_writeBytes h bs a ha

@[simp] theorem State.length_bytesAt (s : State) (a n : Nat) : (s.bytesAt a n).length = n :=
  Memory.length_readBytes s.mem n a

theorem State.bytesAt_getElem? (s : State) (a n k : Nat) :
    (s.bytesAt a n)[k]? = if k < n then some (s.byteAt (a + k)) else none :=
  Memory.readBytes_getElem? s.mem n a k

/-! ### Checked accesses (R51) -/

/-- What a checked read answers. -/
theorem State.readMem_eq (s : State) (a n : Nat) :
    (inRange a n ∧ s.readMem a n = .ok (s.bytesAt a n)) ∨
      (¬ inRange a n ∧ s.readMem a n = .error .memoryOutOfBounds) := by
  unfold State.readMem
  split
  · next h => exact .inl ⟨h, rfl⟩
  · next h => exact .inr ⟨h, rfl⟩

/-- What a checked write answers. -/
theorem State.writeMem_eq (s : State) (a : Nat) (bs : List Byte) :
    (inRange a bs.length ∧ s.writeMem a bs = .ok (s.store a bs)) ∨
      (¬ inRange a bs.length ∧ s.writeMem a bs = .error .memoryOutOfBounds) := by
  unfold State.writeMem
  split
  · next h => exact .inl ⟨h, rfl⟩
  · next h => exact .inr ⟨h, rfl⟩

/-- The memory after `Construct` is in its canonical form, whatever the parameters. -/
theorem State.fresh_memWf (p : Params) : (State.fresh p).memWf := rfl

end Sys2Proof.Machine
end

