-- ==== Sys2Proof/Laws/State.lean ====
section
/-! SUPPORT. One lemma per field per update of State, true by unfolding, so that no later proof unfolds a record
update; and reading a register after writing one. -/

namespace Sys2Proof.Machine

variable (s : State)

/-! ### `State.setV` -/

@[simp] theorem State.setV_v (r : Reg) (b : Byte) : (s.setV r b).v = s.v.set r b := rfl
@[simp] theorem State.setV_i (r : Reg) (b : Byte) : (s.setV r b).i = s.i := rfl
@[simp] theorem State.setV_pc (r : Reg) (b : Byte) : (s.setV r b).pc = s.pc := rfl
@[simp] theorem State.setV_sp (r : Reg) (b : Byte) : (s.setV r b).sp = s.sp := rfl
@[simp] theorem State.setV_stack (r : Reg) (b : Byte) : (s.setV r b).stack = s.stack := rfl
@[simp] theorem State.setV_dt (r : Reg) (b : Byte) : (s.setV r b).dt = s.dt := rfl
@[simp] theorem State.setV_st (r : Reg) (b : Byte) : (s.setV r b).st = s.st := rfl
@[simp] theorem State.setV_beep (r : Reg) (b : Byte) : (s.setV r b).beep = s.beep := rfl
@[simp] theorem State.setV_mem (r : Reg) (b : Byte) : (s.setV r b).mem = s.mem := rfl
@[simp] theorem State.setV_byteAt (r : Reg) (b : Byte) (a : Nat) : (s.setV r b).byteAt a = s.byteAt a := rfl
@[simp] theorem State.setV_fb (r : Reg) (b : Byte) : (s.setV r b).fb = s.fb := rfl
@[simp] theorem State.setV_fontBase (r : Reg) (b : Byte) : (s.setV r b).fontBase = s.fontBase := rfl
@[simp] theorem State.setV_params (r : Reg) (b : Byte) : (s.setV r b).params = s.params := rfl
@[simp] theorem State.setV_keys (r : Reg) (b : Byte) : (s.setV r b).keys = s.keys := rfl
@[simp] theorem State.setV_rnd (r : Reg) (b : Byte) : (s.setV r b).rnd = s.rnd := rfl
@[simp] theorem State.setV_result (r : Reg) (b : Byte) : (s.setV r b).result = s.result := rfl
@[simp] theorem State.setV_pending (r : Reg) (b : Byte) : (s.setV r b).pending = s.pending := rfl
@[simp] theorem State.setV_draws (r : Reg) (b : Byte) : (s.setV r b).draws = s.draws := rfl
@[simp] theorem State.setV_firstError (r : Reg) (b : Byte) : (s.setV r b).firstError = s.firstError := rfl

/-! ### `State.advance` -/

@[simp] theorem State.advance_v : (s.advance).v = s.v := rfl
@[simp] theorem State.advance_i : (s.advance).i = s.i := rfl
@[simp] theorem State.advance_pc : (s.advance).pc = s.pc + 2 := rfl
@[simp] theorem State.advance_sp : (s.advance).sp = s.sp := rfl
@[simp] theorem State.advance_stack : (s.advance).stack = s.stack := rfl
@[simp] theorem State.advance_dt : (s.advance).dt = s.dt := rfl
@[simp] theorem State.advance_st : (s.advance).st = s.st := rfl
@[simp] theorem State.advance_beep : (s.advance).beep = s.beep := rfl
@[simp] theorem State.advance_mem : (s.advance).mem = s.mem := rfl
@[simp] theorem State.advance_byteAt (a : Nat) : (s.advance).byteAt a = s.byteAt a := rfl
@[simp] theorem State.advance_fb : (s.advance).fb = s.fb := rfl
@[simp] theorem State.advance_fontBase : (s.advance).fontBase = s.fontBase := rfl
@[simp] theorem State.advance_params : (s.advance).params = s.params := rfl
@[simp] theorem State.advance_keys : (s.advance).keys = s.keys := rfl
@[simp] theorem State.advance_rnd : (s.advance).rnd = s.rnd := rfl
@[simp] theorem State.advance_result : (s.advance).result = s.result := rfl
@[simp] theorem State.advance_pending : (s.advance).pending = s.pending := rfl
@[simp] theorem State.advance_draws : (s.advance).draws = s.draws := rfl
@[simp] theorem State.advance_firstError : (s.advance).firstError = s.firstError := rfl

/-! ### `State.jump` -/

@[simp] theorem State.jump_v (a : Word) : (s.jump a).v = s.v := rfl
@[simp] theorem State.jump_i (a : Word) : (s.jump a).i = s.i := rfl
@[simp] theorem State.jump_pc (a : Word) : (s.jump a).pc = a := rfl
@[simp] theorem State.jump_sp (a : Word) : (s.jump a).sp = s.sp := rfl
@[simp] theorem State.jump_stack (a : Word) : (s.jump a).stack = s.stack := rfl
@[simp] theorem State.jump_dt (a : Word) : (s.jump a).dt = s.dt := rfl
@[simp] theorem State.jump_st (a : Word) : (s.jump a).st = s.st := rfl
@[simp] theorem State.jump_beep (a : Word) : (s.jump a).beep = s.beep := rfl
@[simp] theorem State.jump_mem (a : Word) : (s.jump a).mem = s.mem := rfl
@[simp] theorem State.jump_byteAt (w : Word) (a : Nat) : (s.jump w).byteAt a = s.byteAt a := rfl
@[simp] theorem State.jump_fb (a : Word) : (s.jump a).fb = s.fb := rfl
@[simp] theorem State.jump_fontBase (a : Word) : (s.jump a).fontBase = s.fontBase := rfl
@[simp] theorem State.jump_params (a : Word) : (s.jump a).params = s.params := rfl
@[simp] theorem State.jump_keys (a : Word) : (s.jump a).keys = s.keys := rfl
@[simp] theorem State.jump_rnd (a : Word) : (s.jump a).rnd = s.rnd := rfl
@[simp] theorem State.jump_result (a : Word) : (s.jump a).result = s.result := rfl
@[simp] theorem State.jump_pending (a : Word) : (s.jump a).pending = s.pending := rfl
@[simp] theorem State.jump_draws (a : Word) : (s.jump a).draws = s.draws := rfl
@[simp] theorem State.jump_firstError (a : Word) : (s.jump a).firstError = s.firstError := rfl

/-! ### `State.advanceI` -/

@[simp] theorem State.advanceI_v (x : Reg) : (s.advanceI x).v = s.v := rfl
@[simp] theorem State.advanceI_i (x : Reg) : (s.advanceI x).i = s.i + BitVec.ofNat 16 (x.val + 1) := rfl
@[simp] theorem State.advanceI_pc (x : Reg) : (s.advanceI x).pc = s.pc := rfl
@[simp] theorem State.advanceI_sp (x : Reg) : (s.advanceI x).sp = s.sp := rfl
@[simp] theorem State.advanceI_stack (x : Reg) : (s.advanceI x).stack = s.stack := rfl
@[simp] theorem State.advanceI_dt (x : Reg) : (s.advanceI x).dt = s.dt := rfl
@[simp] theorem State.advanceI_st (x : Reg) : (s.advanceI x).st = s.st := rfl
@[simp] theorem State.advanceI_beep (x : Reg) : (s.advanceI x).beep = s.beep := rfl
@[simp] theorem State.advanceI_mem (x : Reg) : (s.advanceI x).mem = s.mem := rfl
@[simp] theorem State.advanceI_byteAt (x : Reg) (a : Nat) : (s.advanceI x).byteAt a = s.byteAt a := rfl
@[simp] theorem State.advanceI_fb (x : Reg) : (s.advanceI x).fb = s.fb := rfl
@[simp] theorem State.advanceI_fontBase (x : Reg) : (s.advanceI x).fontBase = s.fontBase := rfl
@[simp] theorem State.advanceI_params (x : Reg) : (s.advanceI x).params = s.params := rfl
@[simp] theorem State.advanceI_keys (x : Reg) : (s.advanceI x).keys = s.keys := rfl
@[simp] theorem State.advanceI_rnd (x : Reg) : (s.advanceI x).rnd = s.rnd := rfl
@[simp] theorem State.advanceI_result (x : Reg) : (s.advanceI x).result = s.result := rfl
@[simp] theorem State.advanceI_pending (x : Reg) : (s.advanceI x).pending = s.pending := rfl
@[simp] theorem State.advanceI_draws (x : Reg) : (s.advanceI x).draws = s.draws := rfl
@[simp] theorem State.advanceI_firstError (x : Reg) : (s.advanceI x).firstError = s.firstError := rfl

/-! ### `State.raise` -/

@[simp] theorem State.raise_v (e : ErrorKind) : (s.raise e).v = s.v := rfl
@[simp] theorem State.raise_i (e : ErrorKind) : (s.raise e).i = s.i := rfl
@[simp] theorem State.raise_pc (e : ErrorKind) : (s.raise e).pc = s.pc := rfl
@[simp] theorem State.raise_sp (e : ErrorKind) : (s.raise e).sp = s.sp := rfl
@[simp] theorem State.raise_stack (e : ErrorKind) : (s.raise e).stack = s.stack := rfl
@[simp] theorem State.raise_dt (e : ErrorKind) : (s.raise e).dt = s.dt := rfl
@[simp] theorem State.raise_st (e : ErrorKind) : (s.raise e).st = s.st := rfl
@[simp] theorem State.raise_beep (e : ErrorKind) : (s.raise e).beep = s.beep := rfl
@[simp] theorem State.raise_mem (e : ErrorKind) : (s.raise e).mem = s.mem := rfl
@[simp] theorem State.raise_byteAt (e : ErrorKind) (a : Nat) : (s.raise e).byteAt a = s.byteAt a := rfl
@[simp] theorem State.raise_fb (e : ErrorKind) : (s.raise e).fb = s.fb := rfl
@[simp] theorem State.raise_fontBase (e : ErrorKind) : (s.raise e).fontBase = s.fontBase := rfl
@[simp] theorem State.raise_params (e : ErrorKind) : (s.raise e).params = s.params := rfl
@[simp] theorem State.raise_keys (e : ErrorKind) : (s.raise e).keys = s.keys := rfl
@[simp] theorem State.raise_rnd (e : ErrorKind) : (s.raise e).rnd = s.rnd := rfl
@[simp] theorem State.raise_result (e : ErrorKind) : (s.raise e).result = .err e := rfl
@[simp] theorem State.raise_pending (e : ErrorKind) : (s.raise e).pending = s.pending := rfl
@[simp] theorem State.raise_draws (e : ErrorKind) : (s.raise e).draws = s.draws := rfl
@[simp] theorem State.raise_firstError (e : ErrorKind) : (s.raise e).firstError = s.firstError.or (some e) := rfl

/-! ### `State.sample` -/

@[simp] theorem State.sample_v (k : BitVec 16) (b : Byte) : (s.sample k b).v = s.v := rfl
@[simp] theorem State.sample_i (k : BitVec 16) (b : Byte) : (s.sample k b).i = s.i := rfl
@[simp] theorem State.sample_pc (k : BitVec 16) (b : Byte) : (s.sample k b).pc = s.pc := rfl
@[simp] theorem State.sample_sp (k : BitVec 16) (b : Byte) : (s.sample k b).sp = s.sp := rfl
@[simp] theorem State.sample_stack (k : BitVec 16) (b : Byte) : (s.sample k b).stack = s.stack := rfl
@[simp] theorem State.sample_dt (k : BitVec 16) (b : Byte) : (s.sample k b).dt = s.dt := rfl
@[simp] theorem State.sample_st (k : BitVec 16) (b : Byte) : (s.sample k b).st = s.st := rfl
@[simp] theorem State.sample_beep (k : BitVec 16) (b : Byte) : (s.sample k b).beep = s.beep := rfl
@[simp] theorem State.sample_mem (k : BitVec 16) (b : Byte) : (s.sample k b).mem = s.mem := rfl
@[simp] theorem State.sample_byteAt (k : BitVec 16) (b : Byte) (a : Nat) : (s.sample k b).byteAt a = s.byteAt a :=
    rfl
@[simp] theorem State.sample_fb (k : BitVec 16) (b : Byte) : (s.sample k b).fb = s.fb := rfl
@[simp] theorem State.sample_fontBase (k : BitVec 16) (b : Byte) : (s.sample k b).fontBase = s.fontBase := rfl
@[simp] theorem State.sample_params (k : BitVec 16) (b : Byte) : (s.sample k b).params = s.params := rfl
@[simp] theorem State.sample_keys (k : BitVec 16) (b : Byte) : (s.sample k b).keys = k := rfl
@[simp] theorem State.sample_rnd (k : BitVec 16) (b : Byte) : (s.sample k b).rnd = b := rfl
@[simp] theorem State.sample_result (k : BitVec 16) (b : Byte) : (s.sample k b).result = s.result := rfl
@[simp] theorem State.sample_pending (k : BitVec 16) (b : Byte) : (s.sample k b).pending = s.pending := rfl
@[simp] theorem State.sample_draws (k : BitVec 16) (b : Byte) : (s.sample k b).draws = s.draws := rfl
@[simp] theorem State.sample_firstError (k : BitVec 16) (b : Byte) : (s.sample k b).firstError = s.firstError := rfl

/-! ### `State.tick` -/

@[simp] theorem State.tick_v : (s.tick).v = s.v := rfl
@[simp] theorem State.tick_i : (s.tick).i = s.i := rfl
@[simp] theorem State.tick_pc : (s.tick).pc = s.pc := rfl
@[simp] theorem State.tick_sp : (s.tick).sp = s.sp := rfl
@[simp] theorem State.tick_stack : (s.tick).stack = s.stack := rfl
@[simp] theorem State.tick_dt : (s.tick).dt = countDown s.dt := rfl
@[simp] theorem State.tick_st : (s.tick).st = countDown s.st := rfl
@[simp] theorem State.tick_beep : (s.tick).beep = decide (s.st ≠ 0) := rfl
@[simp] theorem State.tick_mem : (s.tick).mem = s.mem := rfl
@[simp] theorem State.tick_byteAt (a : Nat) : (s.tick).byteAt a = s.byteAt a := rfl
@[simp] theorem State.tick_fb : (s.tick).fb = s.fb := rfl
@[simp] theorem State.tick_fontBase : (s.tick).fontBase = s.fontBase := rfl
@[simp] theorem State.tick_params : (s.tick).params = s.params := rfl
@[simp] theorem State.tick_keys : (s.tick).keys = s.keys := rfl
@[simp] theorem State.tick_rnd : (s.tick).rnd = s.rnd := rfl
@[simp] theorem State.tick_result : (s.tick).result = s.result := rfl
@[simp] theorem State.tick_pending : (s.tick).pending = s.pending := rfl
@[simp] theorem State.tick_draws : (s.tick).draws = s.draws := rfl
@[simp] theorem State.tick_firstError : (s.tick).firstError = s.firstError := rfl

/-! ### `State.tickMany` -/

@[simp] theorem State.tickMany_v (n : Nat) : (s.tickMany n).v = s.v := rfl
@[simp] theorem State.tickMany_i (n : Nat) : (s.tickMany n).i = s.i := rfl
@[simp] theorem State.tickMany_pc (n : Nat) : (s.tickMany n).pc = s.pc := rfl
@[simp] theorem State.tickMany_sp (n : Nat) : (s.tickMany n).sp = s.sp := rfl
@[simp] theorem State.tickMany_stack (n : Nat) : (s.tickMany n).stack = s.stack := rfl
@[simp] theorem State.tickMany_dt (n : Nat) : (s.tickMany n).dt = BitVec.ofNat 8 (s.dt.toNat - n) := rfl
@[simp] theorem State.tickMany_st (n : Nat) : (s.tickMany n).st = BitVec.ofNat 8 (s.st.toNat - n) := rfl
@[simp] theorem State.tickMany_beep (n : Nat) : (s.tickMany n).beep = if n = 0 then s.beep else decide (n ≤ s.st.toNat) := rfl
@[simp] theorem State.tickMany_mem (n : Nat) : (s.tickMany n).mem = s.mem := rfl
@[simp] theorem State.tickMany_byteAt (n : Nat) (a : Nat) : (s.tickMany n).byteAt a = s.byteAt a := rfl
@[simp] theorem State.tickMany_fb (n : Nat) : (s.tickMany n).fb = s.fb := rfl
@[simp] theorem State.tickMany_fontBase (n : Nat) : (s.tickMany n).fontBase = s.fontBase := rfl
@[simp] theorem State.tickMany_params (n : Nat) : (s.tickMany n).params = s.params := rfl
@[simp] theorem State.tickMany_keys (n : Nat) : (s.tickMany n).keys = s.keys := rfl
@[simp] theorem State.tickMany_rnd (n : Nat) : (s.tickMany n).rnd = s.rnd := rfl
@[simp] theorem State.tickMany_result (n : Nat) : (s.tickMany n).result = s.result := rfl
@[simp] theorem State.tickMany_pending (n : Nat) : (s.tickMany n).pending = s.pending := rfl
@[simp] theorem State.tickMany_draws (n : Nat) : (s.tickMany n).draws = s.draws := rfl
@[simp] theorem State.tickMany_firstError (n : Nat) : (s.tickMany n).firstError = s.firstError := rfl

/-! ### `State.store` -/

@[simp] theorem State.store_v (a : Nat) (bs : List Byte) : (s.store a bs).v = s.v := rfl
@[simp] theorem State.store_i (a : Nat) (bs : List Byte) : (s.store a bs).i = s.i := rfl
@[simp] theorem State.store_pc (a : Nat) (bs : List Byte) : (s.store a bs).pc = s.pc := rfl
@[simp] theorem State.store_sp (a : Nat) (bs : List Byte) : (s.store a bs).sp = s.sp := rfl
@[simp] theorem State.store_stack (a : Nat) (bs : List Byte) : (s.store a bs).stack = s.stack := rfl
@[simp] theorem State.store_dt (a : Nat) (bs : List Byte) : (s.store a bs).dt = s.dt := rfl
@[simp] theorem State.store_st (a : Nat) (bs : List Byte) : (s.store a bs).st = s.st := rfl
@[simp] theorem State.store_beep (a : Nat) (bs : List Byte) : (s.store a bs).beep = s.beep := rfl
@[simp] theorem State.store_fb (a : Nat) (bs : List Byte) : (s.store a bs).fb = s.fb := rfl
@[simp] theorem State.store_fontBase (a : Nat) (bs : List Byte) : (s.store a bs).fontBase = s.fontBase := rfl
@[simp] theorem State.store_params (a : Nat) (bs : List Byte) : (s.store a bs).params = s.params := rfl
@[simp] theorem State.store_keys (a : Nat) (bs : List Byte) : (s.store a bs).keys = s.keys := rfl
@[simp] theorem State.store_rnd (a : Nat) (bs : List Byte) : (s.store a bs).rnd = s.rnd := rfl
@[simp] theorem State.store_result (a : Nat) (bs : List Byte) : (s.store a bs).result = s.result := rfl
@[simp] theorem State.store_pending (a : Nat) (bs : List Byte) : (s.store a bs).pending = s.pending := rfl
@[simp] theorem State.store_draws (a : Nat) (bs : List Byte) : (s.store a bs).draws = s.draws := rfl
@[simp] theorem State.store_firstError (a : Nat) (bs : List Byte) : (s.store a bs).firstError = s.firstError := rfl
@[simp] theorem State.store_mem (a : Nat) (bs : List Byte) :
    (s.store a bs).mem = Memory.writeBytes s.fontBase s.mem a bs := rfl

/-! ### `State.skipIf` -/

@[simp] theorem State.skipIf_pc (c : Bool) : (s.skipIf c).pc = if c then s.pc + 2 else s.pc := by
  cases c <;> rfl
@[simp] theorem State.skipIf_v (c : Bool) : (s.skipIf c).v = s.v := by cases c <;> rfl
@[simp] theorem State.skipIf_i (c : Bool) : (s.skipIf c).i = s.i := by cases c <;> rfl
@[simp] theorem State.skipIf_sp (c : Bool) : (s.skipIf c).sp = s.sp := by cases c <;> rfl
@[simp] theorem State.skipIf_stack (c : Bool) : (s.skipIf c).stack = s.stack := by cases c <;> rfl
@[simp] theorem State.skipIf_dt (c : Bool) : (s.skipIf c).dt = s.dt := by cases c <;> rfl
@[simp] theorem State.skipIf_st (c : Bool) : (s.skipIf c).st = s.st := by cases c <;> rfl
@[simp] theorem State.skipIf_beep (c : Bool) : (s.skipIf c).beep = s.beep := by cases c <;> rfl
@[simp] theorem State.skipIf_mem (c : Bool) : (s.skipIf c).mem = s.mem := by cases c <;> rfl
@[simp] theorem State.skipIf_byteAt (c : Bool) (a : Nat) : (s.skipIf c).byteAt a = s.byteAt a := by cases c <;> rfl
@[simp] theorem State.skipIf_fb (c : Bool) : (s.skipIf c).fb = s.fb := by cases c <;> rfl
@[simp] theorem State.skipIf_fontBase (c : Bool) : (s.skipIf c).fontBase = s.fontBase := by cases c <;> rfl
@[simp] theorem State.skipIf_params (c : Bool) : (s.skipIf c).params = s.params := by cases c <;> rfl
@[simp] theorem State.skipIf_keys (c : Bool) : (s.skipIf c).keys = s.keys := by cases c <;> rfl
@[simp] theorem State.skipIf_rnd (c : Bool) : (s.skipIf c).rnd = s.rnd := by cases c <;> rfl
@[simp] theorem State.skipIf_result (c : Bool) : (s.skipIf c).result = s.result := by cases c <;> rfl
@[simp] theorem State.skipIf_pending (c : Bool) : (s.skipIf c).pending = s.pending := by cases c <;> rfl
@[simp] theorem State.skipIf_draws (c : Bool) : (s.skipIf c).draws = s.draws := by cases c <;> rfl
@[simp] theorem State.skipIf_firstError (c : Bool) : (s.skipIf c).firstError = s.firstError := by cases c <;> rfl

/-! ### `State.setVFlag` -/

@[simp] theorem State.setVFlag_v (x : Reg) (r : Byte × Bool) :
    (s.setVFlag x r).v = (s.v.set x r.1).set VF (flagByte r.2) := rfl
@[simp] theorem State.setVFlag_i (x : Reg) (r : Byte × Bool) : (s.setVFlag x r).i = s.i := rfl
@[simp] theorem State.setVFlag_pc (x : Reg) (r : Byte × Bool) : (s.setVFlag x r).pc = s.pc := rfl
@[simp] theorem State.setVFlag_sp (x : Reg) (r : Byte × Bool) : (s.setVFlag x r).sp = s.sp := rfl
@[simp] theorem State.setVFlag_stack (x : Reg) (r : Byte × Bool) : (s.setVFlag x r).stack = s.stack := rfl
@[simp] theorem State.setVFlag_dt (x : Reg) (r : Byte × Bool) : (s.setVFlag x r).dt = s.dt := rfl
@[simp] theorem State.setVFlag_st (x : Reg) (r : Byte × Bool) : (s.setVFlag x r).st = s.st := rfl
@[simp] theorem State.setVFlag_beep (x : Reg) (r : Byte × Bool) : (s.setVFlag x r).beep = s.beep := rfl
@[simp] theorem State.setVFlag_mem (x : Reg) (r : Byte × Bool) : (s.setVFlag x r).mem = s.mem := rfl
@[simp] theorem State.setVFlag_byteAt (x : Reg) (r : Byte × Bool) (a : Nat) : (s.setVFlag x r).byteAt a = s.byteAt a :=
    rfl
@[simp] theorem State.setVFlag_fb (x : Reg) (r : Byte × Bool) : (s.setVFlag x r).fb = s.fb := rfl
@[simp] theorem State.setVFlag_fontBase (x : Reg) (r : Byte × Bool) : (s.setVFlag x r).fontBase = s.fontBase := rfl
@[simp] theorem State.setVFlag_params (x : Reg) (r : Byte × Bool) : (s.setVFlag x r).params = s.params := rfl
@[simp] theorem State.setVFlag_keys (x : Reg) (r : Byte × Bool) : (s.setVFlag x r).keys = s.keys := rfl
@[simp] theorem State.setVFlag_rnd (x : Reg) (r : Byte × Bool) : (s.setVFlag x r).rnd = s.rnd := rfl
@[simp] theorem State.setVFlag_result (x : Reg) (r : Byte × Bool) : (s.setVFlag x r).result = s.result := rfl
@[simp] theorem State.setVFlag_pending (x : Reg) (r : Byte × Bool) : (s.setVFlag x r).pending = s.pending := rfl
@[simp] theorem State.setVFlag_draws (x : Reg) (r : Byte × Bool) : (s.setVFlag x r).draws = s.draws := rfl
@[simp] theorem State.setVFlag_firstError (x : Reg) (r : Byte × Bool) : (s.setVFlag x r).firstError = s.firstError := rfl

/-! ### Reading a register -/

/-- `getV` reads the register file and nothing else. -/
theorem State.getV_congr {s t : State} (h : t.v = s.v) (r : Reg) : t.getV r = s.getV r := by
  simp only [State.getV, h]

@[simp] theorem State.getV_setV_same (r : Reg) (b : Byte) : (s.setV r b).getV r = b := by
  simp [State.getV]

theorem State.getV_setV_other {r r' : Reg} (h : r' ≠ r) (b : Byte) : (s.setV r b).getV r' = s.getV r' := by
  have : r.val ≠ r'.val := fun e => h (Fin.ext e.symm)
  simp [State.getV, this]

theorem State.getV_setV (r r' : Reg) (b : Byte) :
    (s.setV r b).getV r' = if r' = r then b else s.getV r' := by
  split
  · next h => subst h; simp
  · next h => exact s.getV_setV_other h b

/-- A flag-writing operation: the flag wins in `VF`, the result stands in `x` otherwise, the rest is untouched. -/
theorem State.getV_setVFlag (x r' : Reg) (r : Byte × Bool) :
    (s.setVFlag x r).getV r' = if r' = VF then flagByte r.2 else if r' = x then r.1 else s.getV r' := by
  simp only [State.setVFlag, State.getV_setV]

/-- Consecutive registers written from `k` on. -/
theorem RegFile.getElem_setFrom (bs : List Byte) : ∀ (v : RegFile) (k j : Nat) (hj : j < 16),
    (RegFile.setFrom v k bs)[j] = if k ≤ j then (bs[j - k]?).getD v[j] else v[j] := by
  induction bs with
  | nil => intro v k j hj; simp [RegFile.setFrom]
  | cons b bs ih =>
    intro v k j hj
    rw [RegFile.setFrom, ih, Vector.getElem_setIfInBounds]
    by_cases h1 : k + 1 ≤ j
    · have h2 : k ≠ j := by omega
      have h3 : k ≤ j := by omega
      obtain ⟨m, hm⟩ : ∃ m, j - k = m + 1 := ⟨j - k - 1, by omega⟩
      have h4 : j - (k + 1) = m := by omega
      simp [h1, h2, h3, hm, h4]
    · by_cases h2 : k = j
      · subst h2; simp
      · have h3 : ¬ k ≤ j := by omega
        simp [h1, h2, h3]

/-- The values `V[0] .. V[x]`, one by one. -/
theorem State.regsUpTo_getElem? (x : Reg) (k : Nat) :
    (s.regsUpTo x)[k]? = if h : k ≤ x.val then some (s.getV ⟨k, by omega⟩) else none := by
  unfold State.regsUpTo State.getV
  split
  · next h =>
    rw [List.getElem?_take_of_lt (by omega)]
    have : k < 16 := by omega
    simp [this]
  · next h => simp
              omega

@[simp] theorem State.regsUpTo_length (x : Reg) : (s.regsUpTo x).length = x.val + 1 := by
  have := x.isLt
  simp [State.regsUpTo]

end Sys2Proof.Machine
end

