-- ==== Sys2Proof/Laws/Machine.lean ====
section
/-! SUPPORT. What each shared operation can do, said once: how an instruction ends, raising an error, the fetch, a Step,
a step of the model; and the frames of the small state updates. -/

namespace Sys2Proof.Machine

/-! ### How an instruction ends -/

theorem State.succeed_eq (s : State) : s.succeed = .next { s with result := .ok } := rfl

theorem State.fail_eq (s : State) (e : ErrorKind) : s.fail e = .next (s.raise e) := rfl

theorem State.orFail_error (s : State) {α : Type} (e : ErrorKind) (k : α → Host.Outcome State Fault Refusal) :
    s.orFail (.error e) k = .next (s.raise e) := rfl

theorem State.orFail_ok (s : State) {α : Type} (a : α) (k : α → Host.Outcome State Fault Refusal) :
    s.orFail (.ok a) k = k a := rfl

/-- Raising an error changes nothing of the block and returns it (60_exceptions.md R188, R189). -/
theorem raised_raise (s : State) (e : ErrorKind) : Raised e s (s.raise e) := by
  refine ⟨⟨rfl, ?_⟩, ⟨rfl, rfl⟩, rfl, rfl, rfl, rfl⟩
  intro p _
  cases p <;> simp [Unchanged, State.getV]

/-! ### Frames of the small updates -/

theorem Frame.refl (ps : List Part) (s : State) : Frame ps s s := by
  refine ⟨rfl, fun p _ => ?_⟩
  cases p <;> simp [Unchanged]

theorem Frame.mono {ps qs : List Part} {s t : State} (h : Frame ps s t) (hsub : ∀ p ∈ ps, p ∈ qs) : Frame qs s t :=
  ⟨h.1, fun p hp => h.2 p fun hm => hp (hsub p hm)⟩

theorem Unchanged.trans {p : Part} {s t u : State} (h : Unchanged p s t) (h' : Unchanged p t u) : Unchanged p s u := by
  cases p <;> simp_all [Unchanged]

theorem Frame.trans {ps : List Part} {s t u : State} (h : Frame ps s t) (h' : Frame ps t u) : Frame ps s u :=
  ⟨h'.1.trans h.1, fun p hp => (h.2 p hp).trans (h'.2 p hp)⟩

/-- An instruction that ends with `succeed` after an update inside `ps` that keeps the host's fields. -/
theorem did_succeed {ps : List Part} {s s' : State} (hf : Frame ps s s') (he : s'.firstError = s.firstError)
    (hk : SameHost s s') : Did ps s { s' with result := .ok } := by
  refine ⟨⟨hf.1, ?_⟩, ⟨rfl, he⟩, hk⟩
  intro p hp
  have := hf.2 p hp
  cases p <;> exact this

theorem frame_setV (s : State) (r : Reg) (b : Byte) : Frame [.regs] s (s.setV r b) := by
  refine ⟨by simp, fun p hp => ?_⟩
  cases p <;> simp_all [Unchanged]

theorem frame_skipIf (s : State) (c : Bool) : Frame [.pc] s (s.skipIf c) := by
  refine ⟨by simp, fun p hp => ?_⟩
  cases p <;> simp_all [Unchanged, State.getV]

theorem frame_tick (s : State) : Frame [.delay, .sound, .beep] s s.tick := by
  refine ⟨by simp, fun p hp => ?_⟩
  cases p <;> simp_all [Unchanged, State.getV]

theorem frame_tickMany (s : State) (n : Nat) : Frame [.delay, .sound, .beep] s (s.tickMany n) := by
  refine ⟨by simp, fun p hp => ?_⟩
  cases p <;> simp_all [Unchanged, State.getV]

/-! ### The fetch (40_step_cycle.md R91) -/

/-- What the fetch answers. -/
theorem State.fetch_cases (s : State) :
    (Config.memSize ≤ s.pc.toNat + 1 ∧ s.fetch = .error .memoryOutOfBounds) ∨
      (s.pc.toNat + 1 < Config.memSize ∧
        s.fetch = .ok (opcodeOfBytes (s.byteAt s.pc.toNat) (s.byteAt (s.pc.toNat + 1)))) := by
  unfold State.fetch
  split
  · next h => exact .inl ⟨h, rfl⟩
  · next h => exact .inr ⟨by omega, rfl⟩

/-- A fetch that succeeds says where `pc` is. -/
theorem State.pc_lt_of_fetch {s : State} {op : Word} (h : s.fetch = .ok op) : s.pc.toNat + 1 < Config.memSize := by
  rcases s.fetch_cases with ⟨_, e⟩ | ⟨hlt, _⟩
  · rw [e] at h; cases h
  · exact hlt

/-- The fetch reads `pc` and memory, nothing else. -/
theorem State.fetch_congr {s t : State} (hpc : t.pc = s.pc) (hm : ∀ a, t.byteAt a = s.byteAt a) :
    t.fetch = s.fetch := by
  unfold State.fetch
  rw [hpc, hm, hm]

@[simp] theorem State.fetch_sample (s : State) (k : BitVec 16) (b : Byte) : (s.sample k b).fetch = s.fetch := rfl

/-! ### A Step (40_step_cycle.md R96) -/

/-- EVERYTHING A STEP CAN DO: fail its fetch with only the inputs sampled, fail its decode with `pc` advanced, or execute
the decoded instruction with `pc` advanced. -/
theorem stepTransaction_cases (k : BitVec 16) (b : Byte) (s : State) :
    (Config.memSize ≤ s.pc.toNat + 1 ∧ stepTransaction k b s = .next ((s.sample k b).raise .memoryOutOfBounds)) ∨
    (∃ op e, s.fetch = .ok op ∧ decode op = .error e ∧
      stepTransaction k b s = .next ((s.sample k b).advance.raise (.unknownOpcode op))) ∨
    (∃ op i, s.fetch = .ok op ∧ decode op = .ok i ∧ stepTransaction k b s = exec i (s.sample k b).advance) := by
  unfold stepTransaction
  simp only [State.fetch_sample]
  rcases s.fetch_cases with ⟨hpc, e⟩ | ⟨_, e⟩
  · exact .inl ⟨hpc, by rw [e]; rfl⟩
  · right
    rw [e]
    cases hd : decode (opcodeOfBytes (s.byteAt s.pc.toNat) (s.byteAt (s.pc.toNat + 1))) with
    | error er => exact .inl ⟨_, er, rfl, hd, by simp only [State.orFail, State.decodeAndExecute, hd]; rfl⟩
    | ok i => exact .inr ⟨_, i, rfl, hd, by simp only [State.orFail, State.decodeAndExecute, hd]⟩

/-- The instruction of a Step, when its word is fetched and decodes. -/
theorem stepTransaction_of_decode {k : BitVec 16} {b : Byte} {s : State} {op : Word} {i : Instr}
    (hf : s.fetch = .ok op) (hd : decode op = .ok i) : stepTransaction k b s = exec i (s.sample k b).advance := by
  simp only [stepTransaction, State.fetch_sample, hf, State.orFail, State.decodeAndExecute, hd]

/-! ### A step of the model (40_step_cycle.md R95) -/

theorem step_of_pending {s : State} {t : Transaction} {rest : List Transaction} (h : s.pending = t :: rest) :
    step s = transact t { s with pending := rest } := by
  simp only [step, nextTransaction, h]

theorem step_of_empty {s : State} (h : s.pending = []) : step s = freeStep s := by
  simp only [step, nextTransaction, h]

/-! ### Runs -/

/-- A run goes on from a next state. -/
theorem run_succ_of_next {s t : State} (h : step s = .next t) (k : Nat) :
    Host.Core.run Sys2Proof.core (k + 1) s = Host.Core.run Sys2Proof.core k t := by
  have h' : Sys2Proof.core.step s = .next t := h
  simp only [Host.Core.run, h']

/-- A run of one step is that step. -/
theorem run_one (s : State) : Host.Core.run Sys2Proof.core 1 s = step s := by
  have h' : Sys2Proof.core.step s = step s := rfl
  simp only [Host.Core.run, h']
  cases step s <;> rfl

/-! ### Placing an instruction (log entry 5) -/

theorem State.fetchable_pc_lt (s : State) : s.fetchable.pc.toNat + 1 < Config.memSize := by
  unfold State.fetchable
  split
  · next h => exact h
  · show (BitVec.ofNat 16 Config.romBase).toNat + 1 < Config.memSize
    decide

@[simp] theorem State.fetchable_mem (s : State) : s.fetchable.mem = s.mem := by
  unfold State.fetchable
  split <;> rfl

@[simp] theorem State.fetchable_fontBase (s : State) : s.fetchable.fontBase = s.fontBase := by
  unfold State.fetchable
  split <;> rfl

/-- The placed word is the one the next Step fetches. -/
theorem State.fetch_withFetchWord {s : State} (h : s.memWf) (nbits w : Nat) :
    (s.withFetchWord nbits w).fetch = .ok (tableWord nbits w) := by
  have hpc := s.fetchable_pc_lt
  have hlen : s.fetchable.pc.toNat + [wordHi (tableWord nbits w), wordLo (tableWord nbits w)].length ≤
      Config.memSize := hpc
  have hmem : s.fetchable.memWf := by
    rw [State.memWf, State.fetchable_mem, State.fetchable_fontBase]; exact h
  rcases (s.withFetchWord nbits w).fetch_cases with ⟨h1, -⟩ | ⟨-, e⟩
  · exact absurd h1 (Nat.not_le.2 hpc)
  · rw [e]
    congr 1
    have hb : ∀ a, (s.withFetchWord nbits w).byteAt a =
        (s.fetchable.store s.fetchable.pc.toNat [wordHi (tableWord nbits w), wordLo (tableWord nbits w)]).byteAt a :=
      fun _ => rfl
    have hp : (s.withFetchWord nbits w).pc = s.fetchable.pc := rfl
    rw [hp, hb, hb, State.byteAt_store hmem hlen, State.byteAt_store hmem hlen]
    simp

/-- The very next step runs exactly the placed instruction. -/
theorem step_withFetchWord {s : State} (h : s.memWf) {nbits w : Nat} {i : Instr}
    (hd : decode (tableWord nbits w) = .ok i) :
    step (s.withFetchWord nbits w) =
      exec i (State.advance { s.withFetchWord nbits w with pending := s.pending }) := by
  have hp : (s.withFetchWord nbits w).pending = .step s.keys s.rnd :: s.pending := rfl
  rw [step_of_pending hp]
  simp only [transact]
  rw [stepTransaction_of_decode (s := { s.withFetchWord nbits w with pending := s.pending })
    (State.fetch_withFetchWord h nbits w) hd]
  unfold State.withFetchWord State.placeWord State.fetchable
  split <;> rfl

/-! ### Construct and Load (70_reset_and_hazards.md R210, R211) -/

/-- What `Construct` makes of a block: `InvalidDimensions` for a zero dimension (60_exceptions.md R186), else the fresh
state of its parameters. -/
theorem State.rebuilt_cases (s : State) :
    ((s.fb.width = 0 ∨ s.fb.height = 0) ∧ s.rebuilt = .error .invalidDimensions) ∨
      (1 ≤ s.fb.width ∧ 1 ≤ s.fb.height ∧ s.rebuilt = .ok
        { State.fresh s.params with pending := s.pending, draws := s.draws, firstError := s.firstError }) := by
  unfold State.rebuilt Framebuffer.allocate
  by_cases h : s.fb.width = 0 ∨ s.fb.height = 0
  · exact .inl ⟨h, by rw [if_pos h]⟩
  · exact .inr ⟨by omega, by omega, by rw [if_neg h]; rfl⟩

theorem State.construct_cases (s : State) :
    ((s.fb.width = 0 ∨ s.fb.height = 0) ∧ s.construct = s.raise .invalidDimensions) ∨
      (1 ≤ s.fb.width ∧ 1 ≤ s.fb.height ∧ s.construct =
        { State.fresh s.params with pending := s.pending, draws := s.draws, firstError := s.firstError }) := by
  unfold State.construct
  rcases s.rebuilt_cases with ⟨h, e⟩ | ⟨h, h', e⟩
  · exact .inl ⟨h, by rw [e]⟩
  · exact .inr ⟨h, h', by rw [e]⟩

theorem State.load_cases (rom : List Byte) (s : State) :
    (Config.romMax < rom.length ∧ s.load rom = s.raise .romTooLarge) ∨
    (rom.length ≤ Config.romMax ∧ (s.fb.width = 0 ∨ s.fb.height = 0) ∧
      s.load rom = s.raise .invalidDimensions) ∨
    (rom.length ≤ Config.romMax ∧ 1 ≤ s.fb.width ∧ 1 ≤ s.fb.height ∧ s.load rom =
      State.store { State.fresh s.params with pending := s.pending, draws := s.draws, firstError := s.firstError }
        Config.romBase rom) := by
  unfold State.load
  split
  · next h => exact .inl ⟨h, rfl⟩
  · next h =>
    rcases s.rebuilt_cases with ⟨h', e⟩ | ⟨h', h'', e⟩
    · exact .inr (.inl ⟨by omega, h', by rw [e]⟩)
    · exact .inr (.inr ⟨by omega, h', h'', by rw [e]⟩)

/-- A fresh block was built with the parameters given (00_scope.md R7). -/
@[simp] theorem State.fresh_params (p : Params) : (State.fresh p).params = p := rfl

end Sys2Proof.Machine
end

