-- ==== Sys2Proof/Laws/Exec.lean ====
section
/-! SUPPORT. The two ways each of the six instructions that can fail ends (60_exceptions.md R180, R188), with the condition
that decides; and the values of the operand forms as numbers. -/

namespace Sys2Proof.Machine

theorem exec_ret_cases (s : State) :
    (s.sp.val = 0 ∧ exec .ret s = .next (s.raise .stackUnderflow)) ∨
    (∃ (h : s.sp.val - 1 < Config.stackDepth), 0 < s.sp.val ∧
      exec .ret s = .next { s with
        sp := ⟨s.sp.val - 1, Nat.lt_succ_of_lt h⟩, pc := s.stack[s.sp.val - 1], result := .ok }) := by
  simp only [exec, execRet]
  split
  · next h => exact .inl ⟨h, rfl⟩
  · next h => exact .inr ⟨by have := s.sp.isLt; omega, by omega, rfl⟩

theorem exec_call_cases (nnn : BitVec 12) (s : State) :
    (∃ (h : s.sp.val < Config.stackDepth), exec (.call nnn) s = .next { s with
      stack := s.stack.set s.sp.val s.pc, sp := ⟨s.sp.val + 1, Nat.succ_lt_succ h⟩, pc := zextAddr nnn,
      result := .ok }) ∨
    (s.sp.val = Config.stackDepth ∧ exec (.call nnn) s = .next (s.raise .stackOverflow)) := by
  simp only [exec, execCall]
  split
  · next h => exact .inl ⟨h, rfl⟩
  · next h => exact .inr ⟨by have := s.sp.isLt; omega, rfl⟩

theorem exec_drw_cases (x y : Reg) (n : Fin 16) (s : State) :
    (inRange s.i.toNat n.val ∧ exec (.drw x y n) s = .next
      { State.setV
          { s with fb := (s.fb.draw (s.getV x).toNat (s.getV y).toNat (s.bytesAt s.i.toNat n.val)).1 }
          VF (flagByte (s.fb.draw (s.getV x).toNat (s.getV y).toNat (s.bytesAt s.i.toNat n.val)).2)
        with result := .ok }) ∨
    (¬ inRange s.i.toNat n.val ∧ exec (.drw x y n) s = .next (s.raise .memoryOutOfBounds)) := by
  rcases s.readMem_eq s.i.toNat n.val with ⟨h, e⟩ | ⟨h, e⟩
  · exact .inl ⟨h, by simp only [exec, execDrw, State.dataAddr, Nat.add_zero, e]; rfl⟩
  · exact .inr ⟨h, by simp only [exec, execDrw, State.dataAddr, Nat.add_zero, e]; rfl⟩

/-- A `DRW` whose sprite lies in memory, by the pieces it changes (45_display.md R162). -/
theorem exec_drw_next (x y : Reg) (n : Fin 16) {s : State} (h : inRange s.i.toNat n.val) :
    ∃ t, exec (.drw x y n) s = .next t ∧
      t.fb = (s.fb.draw (s.getV x).toNat (s.getV y).toNat (s.bytesAt s.i.toNat n.val)).1 ∧
      t.getV VF = flagByte (s.fb.draw (s.getV x).toNat (s.getV y).toNat (s.bytesAt s.i.toNat n.val)).2 ∧
      (∀ r, r ≠ VF → t.getV r = s.getV r) ∧ Did [.regs, .screen] s t := by
  rcases exec_drw_cases x y n s with ⟨-, e⟩ | ⟨h', -⟩
  · refine ⟨_, e, rfl, State.getV_setV_same _ _ _, fun r hr => State.getV_setV_other _ hr _,
      did_succeed ⟨rfl, fun p hp => ?_⟩ rfl ⟨rfl, rfl, rfl, rfl⟩⟩
    cases p
    case regs | screen => simp at hp
    all_goals first | rfl | exact ⟨rfl, rfl⟩ | exact fun _ => rfl
  · exact absurd h h'

theorem exec_ldB_cases (x : Reg) (s : State) :
    (inRange s.i.toNat 3 ∧ exec (.ldB x) s = .next {
      s.store s.i.toNat (decimalDigits (s.getV x)) with result := .ok }) ∨
    (¬ inRange s.i.toNat 3 ∧ exec (.ldB x) s = .next (s.raise .memoryOutOfBounds)) := by
  rcases s.writeMem_eq s.i.toNat (decimalDigits (s.getV x)) with ⟨h, e⟩ | ⟨h, e⟩
  · exact .inl ⟨h, by simp only [exec, execLdB, State.dataAddr, Nat.add_zero, e]; rfl⟩
  · exact .inr ⟨h, by simp only [exec, execLdB, State.dataAddr, Nat.add_zero, e]; rfl⟩

theorem exec_ldMemVx_cases (x : Reg) (s : State) :
    (inRange s.i.toNat (x.val + 1) ∧ exec (.ldMemVx x) s = .next
      { (s.store s.i.toNat (s.regsUpTo x)).advanceI x with result := .ok }) ∨
    (¬ inRange s.i.toNat (x.val + 1) ∧ exec (.ldMemVx x) s = .next (s.raise .memoryOutOfBounds)) := by
  rcases s.writeMem_eq s.i.toNat (s.regsUpTo x) with ⟨h, e⟩ | ⟨h, e⟩
  · exact .inl ⟨by simpa using h, by simp only [exec, execLdMemVx, State.dataAddr, Nat.add_zero, e]; rfl⟩
  · exact .inr ⟨by simpa using h, by simp only [exec, execLdMemVx, State.dataAddr, Nat.add_zero, e]; rfl⟩

theorem exec_ldVxMem_cases (x : Reg) (s : State) :
    (inRange s.i.toNat (x.val + 1) ∧ exec (.ldVxMem x) s = .next
      { State.advanceI { s with v := RegFile.setFrom s.v 0 (s.bytesAt s.i.toNat (x.val + 1)) } x with
        result := .ok }) ∨
    (¬ inRange s.i.toNat (x.val + 1) ∧ exec (.ldVxMem x) s = .next (s.raise .memoryOutOfBounds)) := by
  rcases s.readMem_eq s.i.toNat (x.val + 1) with ⟨h, e⟩ | ⟨h, e⟩
  · exact .inl ⟨h, by simp only [exec, execLdVxMem, State.dataAddr, Nat.add_zero, e]; rfl⟩
  · exact .inr ⟨h, by simp only [exec, execLdVxMem, State.dataAddr, Nat.add_zero, e]; rfl⟩

/-! ### Operand values -/

theorem zextAddr_toNat (nnn : BitVec 12) : (zextAddr nnn).toNat = nnn.toNat := by
  simp [zextAddr]; omega

theorem sysWord_toNat (nnn : BitVec 12) : (sysWord nnn).toNat = nnn.toNat := by
  simp [sysWord, encodeA_toNat]

/-- The sum of `JP V0, nnn` never wraps (10_state.md R25). -/
theorem zextAddr_add_zextByte_toNat (nnn : BitVec 12) (b : Byte) :
    (zextAddr nnn + zextByte b).toNat = nnn.toNat + b.toNat := by
  have := nnn.isLt
  have := b.isLt
  rw [BitVec.toNat_add, zextAddr_toNat]
  simp
  omega

/-- The flag byte is 1 exactly for a true flag, and 0 otherwise (10_state.md R26). -/
@[simp] theorem flagByte_eq_one {f : Bool} : flagByte f = 1#8 ↔ f = true := by cases f <;> decide

@[simp] theorem flagByte_eq_zero {f : Bool} : flagByte f = 0#8 ↔ f = false := by cases f <;> decide

@[simp] theorem flagByte_toNat (f : Bool) : (flagByte f).toNat = if f then 1 else 0 := by cases f <;> rfl

/-- The pixels a sprite in memory covers are those its bytes put a 1 bit on (45_display.md R162, R163). -/
theorem spriteCovers_iff (s : State) (x0 y0 n r c : Nat) :
    SpriteCovers s x0 y0 n r c ↔
      spriteBits s.fb.width s.fb.height x0 y0 0 (s.bytesAt s.i.toNat n) r c = true := by
  rw [spriteBits_iff]
  unfold SpriteCovers
  simp only [State.length_bytesAt, Nat.zero_add]
  constructor <;>
  · rintro ⟨k, j, hk, hj, hb, hr, hc⟩
    refine ⟨k, j, hk, hj, ?_, hr, hc⟩
    simpa only [State.bytesAt_getElem?, if_pos hk, Option.getD_some] using hb

/-- A key that is found is pressed, and every smaller one is not (46_timers_and_keys.md R171). -/
theorem State.lowestKey_eq_some {s : State} {k : Nat} :
    s.lowestKey = some k ↔ k < 16 ∧ s.keyDown k = true ∧ ∀ j, j < k → s.keyDown j = false := by
  unfold State.lowestKey
  rw [List.find?_range_eq_some]
  simp only [List.mem_range, Bool.not_eq_true']
  tauto

theorem State.lowestKey_eq_none {s : State} : s.lowestKey = none ↔ ∀ k, k < 16 → s.keyDown k = false := by
  simp [State.lowestKey, List.find?_eq_none]

end Sys2Proof.Machine
end

