-- ==== Sys2Proof/Laws/PerInstr.lean ====
section
/-! SUPPORT. A fact proved of every instruction, constructor by constructor: its word matches the row of
spec/opcode_table.json it stands for (the row's `match` under its `mask`). -/

namespace Sys2Proof.Laws.MatchesTableRow

/-- The `mask` and `match` of an instruction's row of spec/opcode_table.json. -/
def row : Instr → Word × Word
  | .sys _ => (0xF000, 0x0000)
  | .cls => (0xFFFF, 0x00E0)
  | .ret => (0xFFFF, 0x00EE)
  | .jp _ => (0xF000, 0x1000)
  | .call _ => (0xF000, 0x2000)
  | .seImm _ _ => (0xF000, 0x3000)
  | .sneImm _ _ => (0xF000, 0x4000)
  | .seReg _ _ => (0xF00F, 0x5000)
  | .ldImm _ _ => (0xF000, 0x6000)
  | .addImm _ _ => (0xF000, 0x7000)
  | .ldReg _ _ => (0xF00F, 0x8000)
  | .orReg _ _ => (0xF00F, 0x8001)
  | .andReg _ _ => (0xF00F, 0x8002)
  | .xorReg _ _ => (0xF00F, 0x8003)
  | .addReg _ _ => (0xF00F, 0x8004)
  | .subReg _ _ => (0xF00F, 0x8005)
  | .shrReg _ _ => (0xF00F, 0x8006)
  | .subnReg _ _ => (0xF00F, 0x8007)
  | .shlReg _ _ => (0xF00F, 0x800E)
  | .sneReg _ _ => (0xF00F, 0x9000)
  | .ldI _ => (0xF000, 0xA000)
  | .jpV0 _ => (0xF000, 0xB000)
  | .rnd _ _ => (0xF000, 0xC000)
  | .drw _ _ _ => (0xF000, 0xD000)
  | .skp _ => (0xF0FF, 0xE09E)
  | .sknp _ => (0xF0FF, 0xE0A1)
  | .ldVxDt _ => (0xF0FF, 0xF007)
  | .ldVxK _ => (0xF0FF, 0xF00A)
  | .ldDtVx _ => (0xF0FF, 0xF015)
  | .ldStVx _ => (0xF0FF, 0xF018)
  | .addI _ => (0xF0FF, 0xF01E)
  | .ldF _ => (0xF0FF, 0xF029)
  | .ldB _ => (0xF0FF, 0xF033)
  | .ldMemVx _ => (0xF0FF, 0xF055)
  | .ldVxMem _ => (0xF0FF, 0xF065)

/-- The word of `i` matches its row. -/
def Statement (i : Instr) : Prop := encode i &&& (row i).1 = (row i).2

/-! ### The three shapes of a mask -/

theorem split_mask (op m1 m2 : Word) (h : m1 &&& m2 = 0) : (op &&& (m1 ||| m2)).toNat =
    (op &&& m1).toNat + (op &&& m2).toNat := by
  have e : op &&& (m1 ||| m2) = (op &&& m1) + (op &&& m2) := by
    rw [BitVec.add_eq_or_of_and_eq_zero]
    · apply BitVec.eq_of_getLsbD_eq
      intro i hi
      simp only [BitVec.getLsbD_and, BitVec.getLsbD_or, Bool.and_or_distrib_left]
    · apply BitVec.eq_of_getLsbD_eq
      intro i hi
      have := congrArg (fun v => BitVec.getLsbD v i) h
      simp only [BitVec.getLsbD_and] at this ⊢
      cases op.getLsbD i <;> cases hm1 : m1.getLsbD i <;> cases hm2 : m2.getLsbD i <;> simp_all
  rw [e, BitVec.toNat_add_of_and_eq_zero]
  apply BitVec.eq_of_getLsbD_eq
  intro i hi
  have := congrArg (fun v => BitVec.getLsbD v i) h
  simp only [BitVec.getLsbD_and] at this ⊢
  cases op.getLsbD i <;> cases hm1 : m1.getLsbD i <;> cases hm2 : m2.getLsbD i <;> simp_all

theorem and_low (op : Word) (k : Nat) (hk : k ≤ 16) : (op &&& BitVec.ofNat 16 (2 ^ k - 1)).toNat = op.toNat % 2 ^ k := by
  have : 2 ^ k ≤ 2 ^ 16 := Nat.pow_le_pow_right (by omega) hk
  rw [BitVec.toNat_and, BitVec.toNat_ofNat, Nat.mod_eq_of_lt (by omega), Nat.and_two_pow_sub_one_eq_mod]

theorem and_F000 (op : Word) : (op &&& 0xF000#16).toNat = op.toNat / 4096 * 4096 := by
  have e := split_mask op 0xF000#16 0x0FFF#16 (by decide)
  rw [show 0xF000#16 ||| 0x0FFF#16 = BitVec.ofNat 16 (2 ^ 16 - 1) from rfl, and_low _ 16 (by omega),
    show 0x0FFF#16 = BitVec.ofNat 16 (2 ^ 12 - 1) from rfl, and_low _ 12 (by omega)] at e
  have := op.isLt
  omega

theorem formA (h : BitVec 4) (nnn : BitVec 12) : (encodeA h nnn &&& 0xF000#16).toNat = h.toNat * 4096 := by
  rw [and_F000, encodeA_toNat]; have := nnn.isLt; omega

theorem formXK (h : BitVec 4) (x : Reg) (kk : Byte) : (encodeXK h x kk &&& 0xF000#16).toNat = h.toNat * 4096 := by
  rw [and_F000, encodeXK_toNat]; have := kk.isLt; omega

theorem formX (h : BitVec 4) (x : Reg) (kk : Byte) :
    (encodeXK h x kk &&& 0xF0FF#16).toNat = h.toNat * 4096 + kk.toNat := by
  have e := split_mask (encodeXK h x kk) 0xF000#16 0x00FF#16 (by decide)
  rw [formXK, show 0x00FF#16 = BitVec.ofNat 16 (2 ^ 8 - 1) from rfl, and_low _ 8 (by omega),
    encodeXK_toNat] at e
  refine Eq.trans e ?_
  have := kk.isLt; omega

theorem formXYN (h : BitVec 4) (x y : Reg) (n : BitVec 4) : (encodeXYN h x y n &&& 0xF000#16).toNat = h.toNat * 4096 := by
  rw [and_F000, encodeXYN_toNat]; have := n.isLt; omega

theorem formXY (h : BitVec 4) (x y : Reg) (n : BitVec 4) :
    (encodeXYN h x y n &&& 0xF00F#16).toNat = h.toNat * 4096 + n.toNat := by
  have e := split_mask (encodeXYN h x y n) 0xF000#16 0x000F#16 (by decide)
  rw [formXYN, show 0x000F#16 = BitVec.ofNat 16 (2 ^ 4 - 1) from rfl, and_low _ 4 (by omega),
    encodeXYN_toNat] at e
  refine Eq.trans e ?_
  have := n.isLt; omega

/-! ### One lemma per constructor -/

theorem sys (nnn : BitVec 12) : Statement (.sys nnn) := BitVec.eq_of_toNat_eq (formA _ nnn)
theorem cls : Statement .cls := rfl
theorem ret : Statement .ret := rfl
theorem jp (nnn : BitVec 12) : Statement (.jp nnn) := BitVec.eq_of_toNat_eq (formA _ nnn)
theorem call (nnn : BitVec 12) : Statement (.call nnn) := BitVec.eq_of_toNat_eq (formA _ nnn)
theorem seImm (x : Reg) (kk : Byte) : Statement (.seImm x kk) := BitVec.eq_of_toNat_eq (formXK _ x kk)
theorem sneImm (x : Reg) (kk : Byte) : Statement (.sneImm x kk) := BitVec.eq_of_toNat_eq (formXK _ x kk)
theorem seReg (x y : Reg) : Statement (.seReg x y) := BitVec.eq_of_toNat_eq (formXY _ x y _)
theorem ldImm (x : Reg) (kk : Byte) : Statement (.ldImm x kk) := BitVec.eq_of_toNat_eq (formXK _ x kk)
theorem addImm (x : Reg) (kk : Byte) : Statement (.addImm x kk) := BitVec.eq_of_toNat_eq (formXK _ x kk)
theorem ldReg (x y : Reg) : Statement (.ldReg x y) := BitVec.eq_of_toNat_eq (formXY _ x y _)
theorem orReg (x y : Reg) : Statement (.orReg x y) := BitVec.eq_of_toNat_eq (formXY _ x y _)
theorem andReg (x y : Reg) : Statement (.andReg x y) := BitVec.eq_of_toNat_eq (formXY _ x y _)
theorem xorReg (x y : Reg) : Statement (.xorReg x y) := BitVec.eq_of_toNat_eq (formXY _ x y _)
theorem addReg (x y : Reg) : Statement (.addReg x y) := BitVec.eq_of_toNat_eq (formXY _ x y _)
theorem subReg (x y : Reg) : Statement (.subReg x y) := BitVec.eq_of_toNat_eq (formXY _ x y _)
theorem shrReg (x y : Reg) : Statement (.shrReg x y) := BitVec.eq_of_toNat_eq (formXY _ x y _)
theorem subnReg (x y : Reg) : Statement (.subnReg x y) := BitVec.eq_of_toNat_eq (formXY _ x y _)
theorem shlReg (x y : Reg) : Statement (.shlReg x y) := BitVec.eq_of_toNat_eq (formXY _ x y _)
theorem sneReg (x y : Reg) : Statement (.sneReg x y) := BitVec.eq_of_toNat_eq (formXY _ x y _)
theorem ldI (nnn : BitVec 12) : Statement (.ldI nnn) := BitVec.eq_of_toNat_eq (formA _ nnn)
theorem jpV0 (nnn : BitVec 12) : Statement (.jpV0 nnn) := BitVec.eq_of_toNat_eq (formA _ nnn)
theorem rnd (x : Reg) (kk : Byte) : Statement (.rnd x kk) := BitVec.eq_of_toNat_eq (formXK _ x kk)
theorem drw (x y : Reg) (n : Fin 16) : Statement (.drw x y n) := BitVec.eq_of_toNat_eq (formXYN _ x y _)
theorem skp (x : Reg) : Statement (.skp x) := BitVec.eq_of_toNat_eq (formX _ x _)
theorem sknp (x : Reg) : Statement (.sknp x) := BitVec.eq_of_toNat_eq (formX _ x _)
theorem ldVxDt (x : Reg) : Statement (.ldVxDt x) := BitVec.eq_of_toNat_eq (formX _ x _)
theorem ldVxK (x : Reg) : Statement (.ldVxK x) := BitVec.eq_of_toNat_eq (formX _ x _)
theorem ldDtVx (x : Reg) : Statement (.ldDtVx x) := BitVec.eq_of_toNat_eq (formX _ x _)
theorem ldStVx (x : Reg) : Statement (.ldStVx x) := BitVec.eq_of_toNat_eq (formX _ x _)
theorem addI (x : Reg) : Statement (.addI x) := BitVec.eq_of_toNat_eq (formX _ x _)
theorem ldF (x : Reg) : Statement (.ldF x) := BitVec.eq_of_toNat_eq (formX _ x _)
theorem ldB (x : Reg) : Statement (.ldB x) := BitVec.eq_of_toNat_eq (formX _ x _)
theorem ldMemVx (x : Reg) : Statement (.ldMemVx x) := BitVec.eq_of_toNat_eq (formX _ x _)
theorem ldVxMem (x : Reg) : Statement (.ldVxMem x) := BitVec.eq_of_toNat_eq (formX _ x _)

end Sys2Proof.Laws.MatchesTableRow
end

