-- ==== Sys2Proof/Laws/Timer.lean ====
section
/-! SUPPORT. The timers: `Tick` as arithmetic, and many Ticks in closed form (60_exceptions.md R198, R199). -/

namespace Sys2Proof.Machine

theorem countDown_toNat (t : Byte) : (countDown t).toNat = t.toNat - 1 := by
  unfold countDown
  split
  · next h => subst h; rfl
  · next h =>
    have : t.toNat ≠ 0 := fun e => h (BitVec.eq_of_toNat_eq (by simpa using e))
    have := t.isLt
    rw [BitVec.toNat_sub_of_le (by rw [BitVec.le_def]; simp; omega)]
    simp

/-- `n` Ticks in closed form are `n` Ticks one after the other. -/
theorem State.tickMany_zero (s : State) : s.tickMany 0 = s := by
  simp [State.tickMany]

theorem State.tickMany_succ (s : State) (n : Nat) : s.tickMany (n + 1) = s.tick.tickMany n := by
  have hd := s.dt.isLt
  have hs := s.st.isLt
  have h0 : decide (s.st ≠ 0) = decide (1 ≤ s.st.toNat) := by
    rw [decide_eq_decide]
    constructor
    · intro h
      have : s.st.toNat ≠ 0 := fun e => h (BitVec.eq_of_toNat_eq (by simpa using e))
      omega
    · intro h e
      rw [e] at h
      simp at h
  have hb : (s.tickMany (n + 1)).beep = (s.tick.tickMany n).beep := by
    simp only [State.tickMany_beep, State.tick_beep, State.tick_st, countDown_toNat, h0]
    by_cases hn : n = 0
    · subst hn; simp
    · simp only [hn, if_false, Nat.add_eq_zero_iff, Nat.one_ne_zero, and_false]
      rw [decide_eq_decide]; omega
  have h1 : (s.tickMany (n + 1)).dt = (s.tick.tickMany n).dt := by
    simp only [State.tickMany_dt, State.tick_dt, countDown_toNat]
    congr 1; omega
  have h2 : (s.tickMany (n + 1)).st = (s.tick.tickMany n).st := by
    simp only [State.tickMany_st, State.tick_st, countDown_toNat]
    congr 1; omega
  unfold State.tickMany State.tick at *
  simp only at hb h1 h2 ⊢
  rw [hb, h1, h2]

theorem tickMany_eq_iterate (n : Nat) : ∀ s : State, s.tickMany n = State.tick^[n] s := by
  induction n with
  | zero => exact State.tickMany_zero
  | succ n ih => intro s; rw [State.tickMany_succ, ih, Function.iterate_succ_apply]

end Sys2Proof.Machine
end

