-- ==== Sys2Proof/Tests/Slice0.lean ====
section
/-! SUPPORT. Tests on fixed values. Words are written from the encodings of 30_encoding.md R72 and R75; expected results
are those of the vectors of 95_test_vectors.md, by their numbers. Then, for every statement with hypotheses, a witness
that meets them. -/

open Sys2Proof Sys2Proof.Machine

/-! ### Well-formedness (30_encoding.md R74: CLS and RET are tested before SYS) -/

theorem test_wf_refuses_sys_0E0 : Instr.wf (.sys 0x0E0) = false := by decide
theorem test_wf_refuses_sys_0EE : Instr.wf (.sys 0x0EE) = false := by decide
theorem test_wf_accepts_sys_0E1 : Instr.wf (.sys 0x0E1) = true := by decide

/-! ### Decoding: a word of every constructor, bit by bit -/

theorem test_decode_family_0 :
    decode 0b0000_1110_1110_0001#16 = .ok (.sys 0xEE1) ∧
    decode 0b0000_0000_1110_0000#16 = .ok .cls ∧
    decode 0b0000_0000_1110_1110#16 = .ok .ret ∧
    decode 0b0000_0001_1110_0000#16 = .ok (.sys 0x1E0) := by decide

theorem test_decode_addresses :
    decode 0b0001_0010_0011_0100#16 = .ok (.jp 0x234) ∧
    decode 0b0010_1111_1110_1101#16 = .ok (.call 0xFED) ∧
    decode 0b1010_0011_0000_0001#16 = .ok (.ldI 0x301) ∧
    decode 0b1011_1000_0000_0001#16 = .ok (.jpV0 0x801) := by decide

theorem test_decode_immediates :
    decode 0b0011_1010_0101_1100#16 = .ok (.seImm 10 0x5C) ∧
    decode 0b0100_0101_1010_0011#16 = .ok (.sneImm 5 0xA3) ∧
    decode 0b0110_1111_1000_0001#16 = .ok (.ldImm 15 0x81) ∧
    decode 0b0111_0001_1111_1110#16 = .ok (.addImm 1 0xFE) ∧
    decode 0b1100_0010_0000_1111#16 = .ok (.rnd 2 0x0F) := by decide

theorem test_decode_register_pairs :
    decode 0b0101_0011_1100_0000#16 = .ok (.seReg 3 12) ∧
    decode 0b1001_1100_0011_0000#16 = .ok (.sneReg 12 3) ∧
    decode 0b1000_0001_0010_0000#16 = .ok (.ldReg 1 2) ∧
    decode 0b1000_0001_0010_0001#16 = .ok (.orReg 1 2) ∧
    decode 0b1000_0001_0010_0010#16 = .ok (.andReg 1 2) ∧
    decode 0b1000_0001_0010_0011#16 = .ok (.xorReg 1 2) ∧
    decode 0b1000_0001_0010_0100#16 = .ok (.addReg 1 2) ∧
    decode 0b1000_0001_0010_0101#16 = .ok (.subReg 1 2) ∧
    decode 0b1000_0001_0010_0110#16 = .ok (.shrReg 1 2) ∧
    decode 0b1000_0001_0010_0111#16 = .ok (.subnReg 1 2) ∧
    decode 0b1000_0001_0010_1110#16 = .ok (.shlReg 1 2) ∧
    decode 0b1101_0111_1001_1011#16 = .ok (.drw 7 9 11) := by decide

theorem test_decode_families_E_F :
    decode 0b1110_0110_1001_1110#16 = .ok (.skp 6) ∧
    decode 0b1110_0110_1010_0001#16 = .ok (.sknp 6) ∧
    decode 0b1111_0001_0000_0111#16 = .ok (.ldVxDt 1) ∧
    decode 0b1111_0010_0000_1010#16 = .ok (.ldVxK 2) ∧
    decode 0b1111_0011_0001_0101#16 = .ok (.ldDtVx 3) ∧
    decode 0b1111_0100_0001_1000#16 = .ok (.ldStVx 4) ∧
    decode 0b1111_0101_0001_1110#16 = .ok (.addI 5) ∧
    decode 0b1111_0110_0010_1001#16 = .ok (.ldF 6) ∧
    decode 0b1111_0111_0011_0011#16 = .ok (.ldB 7) ∧
    decode 0b1111_1000_0101_0101#16 = .ok (.ldMemVx 8) ∧
    decode 0b1111_1001_0110_0101#16 = .ok (.ldVxMem 9) := by decide

/-- T9 to T17: words of the illegal families, and of dialects the machine does not have. -/
theorem test_decode_illegal :
    decode 0x5121#16 = .error (.unknownOpcode 0x5121) ∧ decode 0x9121#16 = .error (.unknownOpcode 0x9121) ∧
    decode 0x8128#16 = .error (.unknownOpcode 0x8128) ∧ decode 0x812F#16 = .error (.unknownOpcode 0x812F) ∧
    decode 0xE19F#16 = .error (.unknownOpcode 0xE19F) ∧ decode 0xE100#16 = .error (.unknownOpcode 0xE100) ∧
    decode 0xF130#16 = .error (.unknownOpcode 0xF130) ∧ decode 0xF175#16 = .error (.unknownOpcode 0xF175) := by
  decide

/-- The first byte of an instruction is the high byte (R70); too few bytes are no instruction. -/
theorem test_decodeBytes :
    decodeBytes [0x6A, 0x55, 0xAA] = .ok (.ldImm 10 0x55, [0xAA]) ∧
    decodeBytes [0x6A] = .error .truncated := by decide

theorem test_decodeTableWord :
    decodeTableWord 16 0xD125 = some (.drw 1 2 5) ∧ decodeTableWord 16 0x5121 = none := by decide

/-! ### One step -/

/-- The state of a block built with `p`, changed by `f`, with the word `w` where the next Step fetches. -/
def placedIn (p : Params) (w : Nat) (f : State → State) : State := (f (State.fresh p)).withFetchWord 16 w

/-- The same for this hardware. -/
def placed (w : Nat) (f : State → State) : State := placedIn Config.hardware w f

/-- `s` with the pixels of row `r` in the columns `cs` inverted. -/
def flipped (r : Nat) (cs : List Nat) (s : State) : State :=
  { s with fb.pixels := cs.foldl (fun px c => Pixels.flip px r c) s.fb.pixels }

/-- The columns of row `r` whose pixel is 1. -/
def lit (s : State) (r : Nat) : List Nat := (List.range s.fb.width).filter fun c => s.fb.pixel r c

/-- The state after one step. -/
def after (s : State) : Option State :=
  match step s with
  | .next t => some t
  | .fault _ | .refused _ => none

/-- What `g` reads in the state after one step. -/
def seen {α : Type} (w : Nat) (f : State → State) (g : State → α) : Option α := (after (placed w f)).map g

/-- J12. -/
theorem test_sys : seen 0x0123 id (fun t => (t.result, t.pc, t.firstError)) =
    some (.err (.unknownOpcode 0x0123), 0x202, some (.unknownOpcode 0x0123)) := by decide

/-- L2: the step after Construct. -/
theorem test_sys_0000 : (after { State.reset with pending := [.step 0 0] }).map (fun t => (t.result.code, t.pc)) =
    some (3, 0x202) := by decide

/-- G10. -/
theorem test_cls : seen 0x00E0 (fun s => flipped 5 [0, 7, 127] (s.setV 15 1)) (fun t =>
    (lit t 5, t.getV 15, t.result)) = some ([], 1, .ok) := by decide +kernel

/-- J6. -/
theorem test_ret : seen 0x00EE (fun s => { s with pc := 0x20C, sp := 1, stack := s.stack.set 0 0x206 })
    (fun t => (t.pc, t.sp, t.result)) = some (0x206, 0, .ok) := by decide

/-- J7. -/
theorem test_ret_underflow : seen 0x00EE id (fun t => (t.pc, t.sp, t.result)) =
    some (0x202, 0, .err .stackUnderflow) := by decide

/-- J3. -/
theorem test_jp_end : seen 0x1FFF id (fun t => (t.pc, t.result)) = some (0xFFF, .ok) := by decide

/-- J2. -/
theorem test_jp_self : seen 0x1200 id (fun t => (t.pc, decide t.atRest)) = some (0x200, true) := by decide

/-- J5. -/
theorem test_call : seen 0x220A (fun s => { s with pc := 0x204 }) (fun t => (t.pc, t.sp, t.stack[0], t.result)) =
    some (0x20A, 1, 0x206, .ok) := by decide

/-- J8. -/
theorem test_call_overflow : seen 0x2200 (fun s => { s with sp := 16 }) (fun t => (t.pc, t.sp, t.result)) =
    some (0x202, 16, .err .stackOverflow) := by decide

/-- K1. -/
theorem test_seImm : seen 0x3000 (fun s => { s with pc := 0x208 }) (fun t => t.pc) = some 0x20C := by decide

/-- K16: a skip to the end of memory. -/
theorem test_seImm_end : seen 0x3000 (fun s => { s with pc := 0xFFC }) (fun t => (t.pc, t.result)) =
    some (0x1000, .ok) := by decide

/-- K3, K4. -/
theorem test_sneImm :
    seen 0x4A05 (fun s => { s.setV 10 0x05 with pc := 0x300 }) (fun t => t.pc) = some 0x302 ∧
    seen 0x4A05 (fun s => { s.setV 10 0x06 with pc := 0x300 }) (fun t => t.pc) = some 0x304 := by decide

/-- K5, K6. -/
theorem test_seReg :
    seen 0x5120 (fun s => (s.setV 1 7).setV 2 7) (fun t => t.pc) = some 0x204 ∧
    seen 0x5120 (fun s => (s.setV 1 7).setV 2 8) (fun t => t.pc) = some 0x202 := by decide

/-- K8, K9. -/
theorem test_sneReg :
    seen 0x9120 (fun s => (s.setV 1 7).setV 2 8) (fun t => t.pc) = some 0x204 ∧
    seen 0x9330 (fun s => s.setV 3 7) (fun t => t.pc) = some 0x202 := by decide

/-- K11, K12. -/
theorem test_skp :
    seen 0xE09E (fun s => { s.setV 0 0x05 with keys := 0b0101_0000 }) (fun t => t.pc) = some 0x202 ∧
    seen 0xE09E (fun s => { s.setV 0 0x15 with keys := 0b0010_0000 }) (fun t => t.pc) = some 0x204 := by decide

/-- K13, K14. -/
theorem test_sknp :
    seen 0xE0A1 (fun s => s.setV 0 0x05) (fun t => t.pc) = some 0x204 ∧
    seen 0xE0A1 (fun s => { s.setV 0 0x05 with keys := 0b0010_0000 }) (fun t => t.pc) = some 0x202 := by decide

/-- T3: an odd address. -/
theorem test_ldImm : seen 0x6A55 (fun s => { s with pc := 0x201 }) (fun t => (t.getV 10, t.pc)) =
    some (0x55, 0x203) := by decide

/-- T2: the last word of memory. -/
theorem test_ldImm_end : seen 0x6A55 (fun s => { s with pc := 0xFFE }) (fun t => (t.getV 10, t.pc, t.result)) =
    some (0x55, 0x1000, .ok) := by decide

/-- A2. -/
theorem test_addImm_wraps : seen 0x7001 (fun s => s.setV 0 0xFF) (fun t => (t.getV 0, t.getV 15)) =
    some (0, 0) := by decide

/-- A4. -/
theorem test_addImm_vf : seen 0x7F01 (fun s => s.setV 15 0xFF) (fun t => t.getV 15) = some 0 := by decide

/-- A5. -/
theorem test_ldReg : seen 0x8120 (fun s => s.setV 2 0x3C) (fun t => (t.getV 1, t.getV 2)) =
    some (0x3C, 0x3C) := by decide

/-- A6: VF is not cleared. -/
theorem test_or : seen 0x8121 (fun s => ((s.setV 1 0xF0).setV 2 0x0F).setV 15 1) (fun t => (t.getV 1, t.getV 15)) =
    some (0xFF, 1) := by decide

/-- A7. -/
theorem test_and : seen 0x8122 (fun s => (s.setV 1 0xF0).setV 2 0x3C) (fun t => t.getV 1) = some 0x30 := by decide

/-- A8. -/
theorem test_xor : seen 0x8123 (fun s => (s.setV 1 0xF0).setV 2 0x3C) (fun t => t.getV 1) = some 0xCC := by decide

/-- A12: the carry overwrites the sum. -/
theorem test_add_into_vf : seen 0x8F14 (fun s => (s.setV 15 0xFF).setV 1 2) (fun t => (t.getV 15, t.getV 1)) =
    some (1, 2) := by decide

/-- A13: the old VF is the operand. -/
theorem test_add_from_vf : seen 0x81F4 (fun s => (s.setV 1 0x10).setV 15 1) (fun t => (t.getV 1, t.getV 15)) =
    some (0x11, 0) := by decide

/-- A15. -/
theorem test_sub_borrow : seen 0x8125 (fun s => (s.setV 1 1).setV 2 2) (fun t => (t.getV 1, t.getV 15)) =
    some (0xFF, 0) := by decide

/-- A16. -/
theorem test_sub_equal : seen 0x8125 (fun s => (s.setV 1 5).setV 2 5) (fun t => (t.getV 1, t.getV 15)) =
    some (0, 1) := by decide

/-- A23: the source is Vy. -/
theorem test_shr : seen 0x8126 (fun s => (s.setV 1 0xAA).setV 2 5) (fun t => (t.getV 1, t.getV 2, t.getV 15)) =
    some (2, 5, 1) := by decide

/-- A26. -/
theorem test_shr_into_vf : seen 0x8F26 (fun s => (s.setV 15 1).setV 2 4) (fun t => (t.getV 15, t.getV 2)) =
    some (0, 4) := by decide

/-- A21. -/
theorem test_subn : seen 0x8127 (fun s => (s.setV 1 5).setV 2 2) (fun t => (t.getV 1, t.getV 15)) =
    some (0xFD, 0) := by decide

/-- A22. -/
theorem test_subn_from_vf : seen 0x81F7 (fun s => (s.setV 1 1).setV 15 1) (fun t => (t.getV 1, t.getV 15)) =
    some (0, 1) := by decide

/-- A28. -/
theorem test_shl : seen 0x812E (fun s => s.setV 2 0x81) (fun t => (t.getV 1, t.getV 2, t.getV 15)) =
    some (2, 0x81, 1) := by decide

/-- A31. -/
theorem test_shl_into_vf : seen 0x8FFE (fun s => s.setV 15 1) (fun t => t.getV 15) = some 0 := by decide

/-- A32. -/
theorem test_rnd : seen 0xC10F (fun s => { s with rnd := 0xA7 }) (fun t => t.getV 1) = some 0x07 := by decide

/-- M2. -/
theorem test_ldI : seen 0xAFFF id (fun t => t.i) = some 0x0FFF := by decide

/-- J10: no 12-bit mask. -/
theorem test_jpV0 : seen 0xBFFF (fun s => s.setV 0 0xFF) (fun t => (t.pc, t.result)) = some (0x10FE, .ok) := by
  decide

/-- J11: the offset is V0, never V3. -/
theorem test_jpV0_offset : seen 0xB300 (fun s => s.setV 3 0x10) (fun t => t.pc) = some 0x300 := by decide

/-- M5. -/
theorem test_addI_wraps : seen 0xF11E (fun s => { s.setV 1 2 with i := 0xFFFF }) (fun t => (t.i, t.getV 15)) =
    some (1, 0) := by decide

/-- M4. -/
theorem test_addI_past_memory : seen 0xF11E (fun s => { s.setV 1 1 with i := 0x0FFF }) (fun t => (t.i, t.getV 15)) =
    some (0x1000, 0) := by decide

/-- M7. -/
theorem test_ldF : seen 0xF029 (fun s => s.setV 0 0x1F) (fun t => t.i) = some 0x009B := by decide

/-- The highest font base that R7 allows. -/
theorem test_ldF_font_base : (after (placedIn ⟨128, 64, 0x1B0⟩ 0xF029 fun s => s.setV 0 0x0F)).map
    (fun t => (t.i, t.bytesAt 0x1FB 5)) = some (0x1FB, [0xF0, 0x80, 0xF0, 0x80, 0x80]) := by decide

/-- M9. -/
theorem test_ldB : seen 0xF033 (fun s => { s.setV 0 0xFE with i := 0x300 })
    (fun t => (t.bytesAt 0x300 3, t.i)) = some ([2, 5, 4], 0x300) := by decide

/-- M11. -/
theorem test_ldB_outside : seen 0xF033 (fun s => { s.setV 0 0xFF with i := 0xFFE })
    (fun t => (t.bytesAt 0xFFE 2, t.pc, t.result)) = some ([0, 0], 0x202, .err .memoryOutOfBounds) := by
  decide

/-- M13. -/
theorem test_ldMemVx : seen 0xF255 (fun s => { ((s.setV 0 0x11).setV 1 0x22).setV 2 0x33 with i := 0xFFD })
    (fun t => (t.bytesAt 0xFFD 3, t.i, t.result)) = some ([0x11, 0x22, 0x33], 0x1000, .ok) := by decide

/-- M14. -/
theorem test_ldMemVx_outside : seen 0xF255 (fun s => { ((s.setV 0 0x11).setV 1 0x22).setV 2 0x33 with i := 0xFFE })
    (fun t => (t.bytesAt 0xFFE 2, t.i, t.result)) =
      some ([0, 0], 0xFFE, .err .memoryOutOfBounds) := by decide

/-- M17. -/
theorem test_ldVxMem : seen 0xFF65 (fun s => { s with i := 0x050 })
    (fun t => (t.v.toList, t.i)) = some ([0xF0, 0x90, 0x90, 0x90, 0xF0, 0x20, 0x60, 0x20, 0x20, 0x70,
      0xF0, 0x10, 0xF0, 0x80, 0xF0, 0xF0], 0x060) := by decide

/-- M18. -/
theorem test_ldVxMem_outside : seen 0xF165 (fun s => { (s.setV 0 0xAA).setV 1 0xBB with i := 0xFFF })
    (fun t => (t.getV 0, t.getV 1, t.i, t.result)) = some (0xAA, 0xBB, 0xFFF, .err .memoryOutOfBounds) := by decide

/-- G3: rows 62 to 3 of the screen, every pixel wrapped. -/
theorem test_drw_wraps : seen 0xD125 (fun s => { (s.setV 1 126).setV 2 62 with i := 0x073 })
    (fun t => ([62, 63, 0, 1, 2, 3].map (lit t), t.getV 15)) =
      some ([[0, 1, 126, 127], [1], [0], [127], [127], []], 0) := by decide +kernel

/-- The same sprite on a screen of 64 x 32 with the font at 0x100 (00_scope.md R7, 45_display.md R162). -/
theorem test_drw_wraps_64x32 :
    (after (placedIn ⟨64, 32, 0x100⟩ 0xD125 fun s => { (s.setV 1 62).setV 2 30 with i := 0x123 })).map
      (fun t => ([30, 31, 0, 1, 2, 3].map (lit t), t.getV 15)) =
        some ([[0, 1, 62, 63], [1], [0], [63], [63], []], 0) := by decide +kernel

/-- Eight 1 bits on a screen of 4 x 1, by R162: every pixel is set and then cleared, a collision. -/
theorem test_drw_4x1 :
    (after (placedIn ⟨4, 1, 0x050⟩ 0xD001 fun s => { s.store 0x301 [0xFF] with i := 0x301 })).map
      (fun t => (lit t 0, t.getV 15)) = some ([], 1) := by decide +kernel

/-- G9, its third step: the pixel (1, 0) is cleared, a collision. -/
theorem test_drw_collision : seen 0xD001
    (fun s => flipped 0 [0, 1] { s.store 0x301 [0x40] with i := 0x301 })
    (fun t => (lit t 0, t.getV 15)) = some ([0], 1) := by decide +kernel

/-- D1. -/
theorem test_ldVxDt : seen 0xF107 (fun s => { s with dt := 0x2A }) (fun t => t.getV 1) = some 0x2A := by decide

/-- D10. -/
theorem test_ldVxK_waits : seen 0xF20A (fun s => { s with pc := 0x20A }) (fun t => (t.pc, t.getV 2, t.result)) =
    some (0x20A, 0, .ok) := by decide

/-- D11: keys 5 and 9. -/
theorem test_ldVxK_least : seen 0xF20A (fun s => { s with pc := 0x20A, keys := 0b10_0010_0000 })
    (fun t => (t.pc, t.getV 2)) = some (0x20C, 5) := by decide

/-- D2. -/
theorem test_ldDtVx : seen 0xF015 (fun s => s.setV 0 3) (fun t => t.dt) = some 3 := by decide

/-- D14. -/
theorem test_ldStVx : seen 0xF018 (fun s => { s with st := 5, beep := true }) (fun t => (t.st, t.beep)) =
    some (0, true) := by decide

/-- T9: an illegal word is an error and no skip. -/
theorem test_illegal_word : seen 0x5121 id (fun t => (t.result, t.pc)) =
    some (.err (.unknownOpcode 0x5121), 0x202) := by decide

/-- T1. -/
theorem test_fetch_outside : (after { State.reset with pc := 0xFFF, pending := [.step 0 0] }).map
    (fun t => (t.result, t.pc)) = some (.err .memoryOutOfBounds, 0xFFF) := by decide

/-- D5, D8. -/
theorem test_tick :
    (after { State.reset with st := 1, beep := true, pending := [.tick] }).map (fun t => (t.st, t.beep)) =
      some (0, true) ∧
    (after { State.reset with dt := 5, st := 1, pending := [.tick] }).map (fun t => (t.dt, t.st, t.beep)) =
      some (4, 0, true) := by decide

/-- D6, D7. -/
theorem test_tick_zero :
    (after { State.reset with beep := true, pending := [.tick] }).map (fun t => (t.dt, t.st, t.beep)) =
      some (0, 0, false) := by decide

/-- S1: the first opcode of a loaded ROM, after any history. -/
theorem test_load : (after { State.reset.setV 3 7 with sp := 4, pending := [.load [0x6A, 0x55]] }).map
    (fun t => (t.fetch.toOption, t.getV 3, t.sp, t.pc)) = some (some 0x6A55, 0, 0, 0x200) := by decide

/-- L7: the font is rebuilt. -/
theorem test_load_font : (after { State.reset with mem := (State.reset.store 0x050 [0]).mem, pending := [.load []] }).map
    (fun t => t.byteAt 0x050) = some 0xF0 := by decide

/-- L1, from a used state. -/
theorem test_construct : (after { State.reset with i := 7, beep := true, pending := [.construct, .tick] }).map
    (fun t => (t.i, t.beep, [0x04F, 0x050, 0x09F, 0x0A0].map t.byteAt, t.pending)) =
      some (0, false, [0x00, 0xF0, 0x80, 0x00], [.tick]) := by decide

/-- 60_exceptions.md R186: neither Construct nor Load can allocate a framebuffer with no columns or no rows. -/
theorem test_invalid_dimensions :
    (after { State.fresh ⟨0, 64, 0x050⟩ with i := 7, pending := [.construct] }).map (fun t => (t.result, t.i)) =
      some (.err .invalidDimensions, 7) ∧
    (after { State.fresh ⟨128, 0, 0x050⟩ with i := 7, pending := [.load [0x6A]] }).map (fun t => (t.result, t.i)) =
      some (.err .invalidDimensions, 7) := by decide

/-- The parameters of this hardware meet what 00_scope.md R7 asks, and its fixed ones fit together. -/
theorem test_parameters : Config.hardware.Valid ∧ Config.romBase + Config.romMax = Config.memSize := by decide

/-! ### Witnesses: for every statement with hypotheses, a state and operands that meet them -/

/-- `ConstructLeavesResetState`: this hardware, and the smallest screen. -/
theorem witness_construct_pending :
    (∃ (s : State) (rest : List Transaction), s.pending = .construct :: rest ∧ 1 ≤ s.fb.width ∧ 1 ≤ s.fb.height) ∧
    (∃ (s : State) (rest : List Transaction), s.pending = .construct :: rest ∧ s.fb.width = 1 ∧ s.fb.height = 1) :=
  ⟨⟨{ State.reset with pending := [.construct] }, [], rfl, by decide, by decide⟩,
    ⟨{ State.fresh ⟨1, 1, 0⟩ with pending := [.construct] }, [], rfl, rfl, rfl⟩⟩

/-- `AddIWrapsAndLdFPointsAtTheGlyph`: the highest and the lowest font base that R7 allows. -/
theorem witness_font_base :
    (State.fresh ⟨128, 64, 0x1B0⟩).fontBase + 80 = 0x200 ∧ (State.fresh ⟨128, 64, 0⟩).fontBase + 80 ≤ 0x200 := by decide

/-- `DecodeEncodeAllInstructions`: the constructor with a condition, at both sides of the two words left out. -/
theorem witness_wf :
    Instr.wf (.sys 0x000) = true ∧ Instr.wf (.sys 0x0DF) = true ∧ Instr.wf (.sys 0x0ED) = true ∧
    Instr.wf (.sys 0x0EF) = true ∧ Instr.wf (.sys 0xFFF) = true ∧ Instr.wf (.drw 15 15 15) = true := by decide

/-- `EncodeDecodeAllWords`. -/
theorem witness_decode_accepts : decode 0xFF65 = .ok (.ldVxMem 15) ∧ decode 0x0000 = .ok (.sys 0) := by decide

/-- `DecodeRejectsExactlyIllegalWords`: a word of each of the five families, at the ends of their ranges. -/
theorem witness_decode_rejects :
    decode 0x5001 = .error (.unknownOpcode 0x5001) ∧ decode 0x5FFF = .error (.unknownOpcode 0x5FFF) ∧
    decode 0x8008 = .error (.unknownOpcode 0x8008) ∧ decode 0x8FFD = .error (.unknownOpcode 0x8FFD) ∧
    decode 0x8FFF = .error (.unknownOpcode 0x8FFF) ∧ decode 0x9001 = .error (.unknownOpcode 0x9001) ∧
    decode 0xE000 = .error (.unknownOpcode 0xE000) ∧ decode 0xEFA2 = .error (.unknownOpcode 0xEFA2) ∧
    decode 0xF000 = .error (.unknownOpcode 0xF000) ∧ decode 0xFFFF = .error (.unknownOpcode 0xFFFF) := by decide

/-- `StepRunsDecodedInstruction`, at the last fetchable address. -/
theorem witness_step_decoded : ∃ (s : State) (i : Instr), s.pending = [.step 0 0] ∧ s.pc.toNat + 1 < 4096 ∧
    decodeBytes [s.byteAt s.pc.toNat, s.byteAt (s.pc.toNat + 1)] = .ok (i, []) :=
  ⟨placed 0x6A55 fun s => { s with pc := 0xFFE }, .ldImm 10 0x55, by decide, by decide, by decide⟩

/-- `FreeStepRunsDecodedInstruction`, `FreeStepIsAScheduledRun`. -/
theorem witness_free_step : ∃ (s : State) (i : Instr), s.pending = [] ∧ s.pc.toNat + 1 < 4096 ∧
    decodeBytes [s.byteAt s.pc.toNat, s.byteAt (s.pc.toNat + 1)] = .ok (i, []) :=
  ⟨{ placed 0x6A55 id with pending := [] }, .ldImm 10 0x55, rfl, by decide, by decide⟩

/-- `FetchReadsTwoBytesOrRaises`: both clauses where they meet. -/
theorem witness_fetch :
    (∃ s : State, s.pending = [.step 0 0] ∧ 4096 ≤ s.pc.toNat + 1) ∧
    (∃ s : State, s.pending = [.step 0 0] ∧ s.pc.toNat + 1 < 4096) :=
  ⟨⟨{ State.reset with pc := 0xFFF, pending := [.step 0 0] }, rfl, by decide⟩,
    ⟨{ State.reset with pc := 0xFFE, pending := [.step 0 0] }, rfl, by decide⟩⟩

/-- `UnknownOpcodeRaisedExactlyForIllegalAndSys`: an illegal word, `SYS`, and a Step that returns the error. -/
theorem witness_unknown_opcode :
    (∃ s : State, s.pending = [.step 0 0] ∧ s.fetch = .ok 0x5121 ∧ decode 0x5121 = .error (.unknownOpcode 0x5121)) ∧
    (∃ s : State, s.pending = [.step 0 0] ∧ s.fetch = .ok 0x00FF ∧ decode 0x00FF = .ok (.sys 0x0FF)) ∧
    (∃ s t : State, s.pending = [.step 0 0] ∧ s.fetch = .ok 0x5121 ∧ step s = .next t ∧
      t.result = .err (.unknownOpcode 0x5121)) :=
  ⟨⟨placed 0x5121 id, by decide, by decide, by decide⟩, ⟨placed 0x00FF id, by decide, by decide, by decide⟩,
    ⟨placed 0x5121 id, _, by decide, by decide, rfl, by decide⟩⟩

/-- `StepErrorChangesNothingButPc`: a fetch that fails and an instruction that fails. -/
theorem witness_step_error :
    (∃ s t : State, s.pending = [.step 0 0] ∧ step s = .next t ∧ t.result = .err .memoryOutOfBounds ∧
      4096 ≤ s.pc.toNat + 1) ∧
    (∃ s t : State, s.pending = [.step 0 0] ∧ step s = .next t ∧ t.result = .err .memoryOutOfBounds ∧
      s.pc.toNat + 1 < 4096) :=
  ⟨⟨{ State.reset with pc := 0xFFF, pending := [.step 0 0] }, _, rfl, rfl, by decide, by decide⟩,
    ⟨placed 0xF033 fun s => { s with i := 0xFFE }, _, by decide, rfl, by decide, by decide⟩⟩

/-- `ErrorCausesOfInstructions`: each cause at its boundary, and one step inside it. -/
theorem witness_error_causes :
    (∃ t, exec (.sys 0) State.reset = .next t ∧ t.result = .err (.unknownOpcode 0)) ∧
    (∃ t, exec (.call 0) { State.reset with sp := 16 } = .next t ∧ t.result = .err .stackOverflow) ∧
    (∃ t, exec (.call 0) { State.reset with sp := 15 } = .next t ∧ t.result = .ok) ∧
    (∃ t, exec .ret State.reset = .next t ∧ t.result = .err .stackUnderflow) ∧
    (∃ t, exec (.drw 0 0 1) { State.reset with i := 0x1000 } = .next t ∧ t.result = .err .memoryOutOfBounds) ∧
    (∃ t, exec (.drw 0 0 1) { State.reset with i := 0xFFF } = .next t ∧ t.result = .ok) ∧
    (∃ t, exec (.drw 0 0 0) { State.reset with i := 0xFFFF } = .next t ∧ t.result = .ok) ∧
    (∃ t, exec (.ldB 0) { State.reset with i := 0xFFE } = .next t ∧ t.result = .err .memoryOutOfBounds) ∧
    (∃ t, exec (.ldB 0) { State.reset with i := 0xFFD } = .next t ∧ t.result = .ok) ∧
    (∃ t, exec (.ldMemVx 0) { State.reset with i := 0x1000 } = .next t ∧ t.result = .err .memoryOutOfBounds) ∧
    (∃ t, exec (.ldMemVx 15) { State.reset with i := 0xFF0 } = .next t ∧ t.result = .ok) ∧
    (∃ t, exec (.ldVxMem 15) { State.reset with i := 0xFF1 } = .next t ∧ t.result = .err .memoryOutOfBounds) ∧
    (∃ t, exec (.ldVxMem 0) { State.reset with i := 0xFFF } = .next t ∧ t.result = .ok) :=
  ⟨⟨_, rfl, rfl⟩, ⟨_, rfl, rfl⟩, ⟨_, rfl, rfl⟩, ⟨_, rfl, rfl⟩, ⟨_, rfl, rfl⟩, ⟨_, rfl, rfl⟩, ⟨_, rfl, rfl⟩,
    ⟨_, rfl, rfl⟩, ⟨_, rfl, rfl⟩, ⟨_, rfl, rfl⟩, ⟨_, rfl, rfl⟩, ⟨_, rfl, rfl⟩, ⟨_, rfl, rfl⟩⟩

/-- `FirstErrorIsKept`: an error already recorded, a first one, and none before. -/
theorem witness_first_error :
    (∃ s t : State, step s = .next t ∧ s.firstError = some .stackUnderflow) ∧
    (∃ s t : State, step s = .next t ∧ s.firstError = none ∧ t.firstError = some .stackUnderflow) ∧
    (∃ s t : State, step s = .next t ∧ s.firstError = none ∧ s.result = .ok ∧ t.result = .err .stackUnderflow) :=
  ⟨⟨placed 0x1200 fun s => s.raise .stackUnderflow, _, rfl, by decide⟩,
    ⟨placed 0x00EE id, _, rfl, by decide, by decide⟩, ⟨placed 0x00EE id, _, rfl, by decide, by decide, by decide⟩⟩

/-- `RetPopsTheReturnAddress`, `RetOnEmptyStackRaises`: both ends of SP. -/
theorem witness_ret :
    (∃ s : State, s.sp.val = 0) ∧ (∃ s : State, s.sp.val = 1 ∧ 0 < s.sp.val) ∧
    (∃ s : State, s.sp.val = 16 ∧ s.sp.val ≠ 0) :=
  ⟨⟨State.reset, rfl⟩, ⟨{ State.reset with sp := 1 }, rfl, by decide⟩,
    ⟨{ State.reset with sp := 16 }, rfl, by decide⟩⟩

/-- `JpLoadsItsTarget`: the clause about a self-jump, at the highest address it can stand at; and the clause about
0xFFF. -/
theorem witness_jp :
    (∃ s : State, s.pending = [.step 0 0] ∧ s.fetch = .ok 0x1FFE ∧ decode 0x1FFE = .ok (.jp 0xFFE) ∧
      s.pc.toNat = (0xFFE#12).toNat) ∧ (0xFFF#12).toNat = 0xFFF :=
  ⟨⟨placed 0x1FFE fun s => { s with pc := 0xFFE }, by decide, by decide, by decide, by decide⟩, rfl⟩

/-- `CallPushesTheReturnAddressOrRaises`: both clauses where they meet. -/
theorem witness_call :
    (∃ s : State, s.sp.val = 15 ∧ s.sp.val < 16) ∧ (∃ s : State, s.sp.val = 16) :=
  ⟨⟨{ State.reset with sp := 15 }, rfl, by decide⟩, ⟨{ State.reset with sp := 16 }, rfl⟩⟩

/-- `NestedCallsReturnInOrder`: sixteen calls from an empty stack, none from a full one. -/
theorem witness_nested_calls :
    (∃ (ts : List (BitVec 12)) (s : State), ts.length = 16 ∧ s.sp.val + ts.length ≤ 16 ∧
      s.sp.val + ts.length = 16) ∧
    (∃ s : State, s.sp.val + ([] : List (BitVec 12)).length ≤ 16 ∧ s.sp.val = 16) :=
  ⟨⟨List.replicate 16 0x200, State.reset, rfl, by decide, by decide⟩,
    ⟨{ State.reset with sp := 16 }, by decide, rfl⟩⟩

/-- `JpV0AddsTheOffsetUnmasked`: sums on both sides of the last fetchable address. -/
theorem witness_jpV0 :
    (∃ s : State, 4094 < (0xFFE#12).toNat + (s.getV 0).toNat ∧ (s.getV 0).toNat = 1) ∧
    (∃ s : State, ¬ 4094 < (0xFFE#12).toNat + (s.getV 0).toNat) :=
  ⟨⟨State.reset.setV 0 1, by decide, by decide⟩, ⟨State.reset, by decide⟩⟩

/-- `RegisterSkipsAdvancePcOnTheirCondition`: the words of the last clause. -/
theorem witness_skip_words :
    ((0x5121#16).toNat / 4096 = 0x5 ∧ (0x5121#16).toNat % 16 ≠ 0) ∧
    ((0x912F#16).toNat / 4096 = 0x9 ∧ (0x912F#16).toNat % 16 ≠ 0) := by decide

/-- `AddWritesSumThenCarry`, `SubtractionsWriteDifferenceThenNoBorrow`, `ShiftsMoveVyAndKeepTheBitShiftedOut`,
`DrwTwiceRestoresTheScreen`: registers other than VF. -/
theorem witness_not_vf : (0 : Reg) ≠ VF ∧ (14 : Reg) ≠ VF ∧ ∃ r x : Reg, r ≠ x ∧ r ≠ VF :=
  ⟨by decide, by decide, 0, 1, by decide, by decide⟩

/-- `LdBStoresDecimalDigits`: both clauses where they meet. -/
theorem witness_ldB :
    (∃ s : State, s.memWf ∧ ∃ a, a = s.dataAddr 0 ∧ a + 2 ≤ 4095 ∧ a + 2 = 4095) ∧
    (∃ s : State, s.memWf ∧ 4095 < s.i.toNat + 2 ∧ s.i.toNat + 2 = 4096) :=
  ⟨⟨{ State.reset with i := 0xFFD }, rfl, 0xFFD, by decide, by decide, by decide⟩,
    ⟨{ State.reset with i := 0xFFE }, rfl, by decide, by decide⟩⟩

/-- `RegisterDumpStoresAndAdvancesI`, `RegisterLoadReadsAndAdvancesI`: both clauses where they meet, for one register and
for sixteen. -/
theorem witness_register_dump :
    (∃ s : State, s.memWf ∧ ∃ a, a = s.dataAddr 0 ∧ a + (15 : Reg).val ≤ 4095 ∧
      s.i.toNat + (15 : Reg).val = 4095) ∧
    (∃ s : State, s.memWf ∧ ∃ a, a = s.dataAddr 0 ∧ a + (0 : Reg).val ≤ 4095 ∧
      s.i.toNat + (0 : Reg).val = 4095) ∧
    (∃ s : State, s.memWf ∧ 4095 < s.i.toNat + (15 : Reg).val ∧
      s.i.toNat + (15 : Reg).val = 4096) ∧
    (∃ s : State, s.memWf ∧ 4095 < s.i.toNat + (0 : Reg).val ∧ s.i.toNat = 4096) :=
  ⟨⟨{ State.reset with i := 0xFF0 }, rfl, 0xFF0, by decide, by decide, by decide⟩,
    ⟨{ State.reset with i := 0xFFF }, rfl, 0xFFF, by decide, by decide, by decide⟩,
    ⟨{ State.reset with i := 0xFF1 }, rfl, by decide, by decide⟩,
    ⟨{ State.reset with i := 0x1000 }, rfl, by decide, by decide⟩⟩

/-- `FetchSeesTheStoreBeforeIt`. -/
theorem witness_fetch_after_store :
    ∃ s : State, s.memWf ∧ 1 ≤ (1 : Reg).val ∧ s.i = s.pc ∧ s.i.toNat + (1 : Reg).val ≤ 4095 :=
  ⟨{ State.reset with i := 0xFFE, pc := 0xFFE }, rfl, by decide, rfl, by decide⟩

/-- `DrwXorsTheSpriteAndReportsCollision`, `DrwFlipsOncePerSpriteBitOnAnyScreen`, `DrwOutOfRangeRaises`,
`DrwTwiceRestoresTheScreen`: the empty sprite at the highest I, a sprite that ends at 4095, and one that ends at 4096; on
this hardware, and on the smallest screen where no two bits of the sprite meet. -/
theorem witness_drw :
    (∃ s : State, 8 ≤ s.fb.width ∧ 1 ≤ s.fb.height ∧ (0 : Fin 16).val ≤ s.fb.height ∧ (0 : Fin 16).val = 0 ∧
      s.i.toNat = 0xFFFF) ∧
    (∃ s : State, s.fb.width = 8 ∧ s.fb.height = 15 ∧ (15 : Fin 16).val ≤ s.fb.height ∧
      s.i.toNat + (15 : Fin 16).val - 1 ≤ 4095 ∧ s.i.toNat + (15 : Fin 16).val ≤ 4096 ∧
      s.i.toNat + (15 : Fin 16).val - 1 = 4095) ∧
    (∃ s : State, 0 < (15 : Fin 16).val ∧ 4095 < s.i.toNat + (15 : Fin 16).val - 1 ∧
      s.i.toNat + (15 : Fin 16).val - 1 = 4096) :=
  ⟨⟨{ State.reset with i := 0xFFFF }, by decide, by decide, by decide, rfl, by decide⟩,
    ⟨{ State.fresh ⟨8, 15, 0x050⟩ with i := 0xFF1 }, rfl, rfl, by decide, by decide, by decide, by decide⟩,
    ⟨{ State.reset with i := 0xFF2 }, by decide, by decide, by decide⟩⟩

/-- The same statements: a pixel that a sprite covers, and one that it does not. -/
theorem witness_sprite_covers :
    SpriteCovers { State.reset with i := 0x050 } 127 63 5 63 2 ∧
    ¬ SpriteCovers { State.reset with i := 0x050 } 127 63 0 63 2 :=
  ⟨⟨0, 3, by decide, by decide, by decide, by decide, by decide⟩, fun ⟨_, _, h, _⟩ => absurd h (Nat.not_lt_zero _)⟩

/-- `DrwFlipsOncePerSpriteBitOnAnyScreen`, its clause about a pixel hit more than once, by R162: glyph 0, whose rows have
4, 2, 2, 2, 4 bits, on a screen of 1 x 1; and a pixel of this hardware hit once and one not hit. -/
theorem witness_sprite_hits :
    spriteHits { State.fresh ⟨1, 1, 0x050⟩ with i := 0x050 } 9 9 5 0 0 = 14 ∧
    spriteHits { State.reset with i := 0x050 } 127 63 5 63 127 = 1 ∧
    spriteHits { State.reset with i := 0x050 } 127 63 5 63 3 = 0 := by decide

/-- `AllocationFailsExactlyOnZeroDimensions`: its clauses about an allocation that succeeds, and about blocks with no
columns or no rows. -/
theorem witness_allocate :
    Framebuffer.allocate 1 1 = .ok (Framebuffer.zeroed 1 1) ∧
    (∃ s : State, s.pending = [.construct] ∧ s.fb.width = 0 ∧ s.fb.height = 1) ∧
    (∃ s : State, s.pending = [.load []] ∧ s.fb.width = 1 ∧ s.fb.height = 0) :=
  ⟨by decide, ⟨{ State.fresh ⟨0, 1, 0⟩ with pending := [.construct] }, rfl, rfl, rfl⟩,
    ⟨{ State.fresh ⟨1, 0, 0⟩ with pending := [.load []] }, rfl, rfl, rfl⟩⟩

/-- `KeyWaitTakesTheLeastKeyOrRepeats`: no key, key 0, key 15 alone. -/
theorem witness_key_wait :
    (∃ s : State, ∀ k, k < 16 → s.keys.getLsbD k = false) ∧
    (∃ s : State, s.keys.getLsbD 0 = true ∧ ∀ j, j < 0 → s.keys.getLsbD j = false) ∧
    (∃ s : State, s.keys.getLsbD 15 = true ∧ ∀ j, j < 15 → s.keys.getLsbD j = false) :=
  ⟨⟨State.reset, by decide⟩, ⟨{ State.reset with keys := 0xFFFF }, by decide, by decide⟩,
    ⟨{ State.reset with keys := 0x8000 }, by decide, by decide⟩⟩

/-- `KeyWaitStepChangesNothing`. -/
theorem witness_key_wait_step : ∃ (s : State) (op : Word),
    s.pending = [.step 0 0] ∧ s.fetch = .ok op ∧ decode op = .ok (.ldVxK 2) :=
  ⟨placed 0xF20A id, 0xF20A, by decide, by decide, by decide⟩

/-- `TickCountsDownBothTimers`, `BeepSoundsForSoundTimerTicks`. -/
theorem witness_tick : (∃ s : State, s.pending = [.tick] ∧ s.st = 1 ∧ s.dt = 0) ∧ 1 ≤ 1 :=
  ⟨⟨{ State.reset with st := 1, pending := [.tick] }, rfl, rfl, rfl⟩, Nat.le_refl 1⟩

/-- `StepsLeaveTheTimersAlone`. -/
theorem witness_step_next : ∃ s t : State, s.pending = [.step 0 0] ∧ step s = .next t :=
  ⟨placed 0xF015 id, _, by decide, rfl⟩

/-- `InstructionsChangeOnlyTheirPieces`, `RegistersChangeOnlyAsDestinations`: an instruction that completes, changes VF
and returns Ok. -/
theorem witness_exec_next : ∃ s t : State, exec (.addReg 1 2) s = .next t ∧ t.result = .ok ∧ t.getV 15 ≠ s.getV 15 :=
  ⟨(State.reset.setV 1 0xFF).setV 2 2, _, rfl, rfl, by decide⟩

/-- `InputsReachOnlyTheirReaders`: different keys for an instruction that reads the random byte only, and equal ones for
one that reads them. -/
theorem witness_inputs :
    (∃ t t' : State, exec (.rnd 0 0xFF) (State.reset.sample 1 7) = .next t ∧
      exec (.rnd 0 0xFF) (State.reset.sample 2 7) = .next t' ∧ ¬ Instr.readsKeys (.rnd 0 0xFF)) ∧
    (∃ t t' : State, exec (.skp 0) (State.reset.sample 1 7) = .next t ∧
      exec (.skp 0) (State.reset.sample 1 9) = .next t' ∧ ¬ Instr.readsRnd (.skp 0)) :=
  ⟨⟨_, _, rfl, rfl, by rintro ⟨x, h | h | h⟩ <;> cases h⟩, ⟨_, _, rfl, rfl, by rintro ⟨x, k, h⟩; cases h⟩⟩

/-- `SelfJumpIsTheRestState`, at the highest address. -/
theorem witness_rest : ∃ s : State, s.atRest ∧ s.pending = [.step 0 0] ∧ s.pc = 0xFFE :=
  ⟨placed 0x1FFE fun s => { s with pc := 0xFFE }, by decide, by decide, by decide⟩

/-- A ROM of any length. -/
theorem witness_rom (n : Nat) : ∃ rom : List Byte, rom.length = n := ⟨List.replicate n 0xAB, List.length_replicate⟩

/-- `LoadRebuildsTheStateAndCopiesTheRom`, `LoadTooLargeChangesNothing`: the largest ROM, on the smallest screen, and one
byte more. -/
theorem witness_load :
    (∃ (s : State) (rom : List Byte), s.pending = [.load rom] ∧ rom.length ≤ 3584 ∧ 1 ≤ s.fb.width ∧
      1 ≤ s.fb.height ∧ rom.length = 3584) ∧
    (∃ (s : State) (rom : List Byte), s.pending = [.load rom] ∧ 3584 < rom.length ∧ rom.length = 3585) := by
  obtain ⟨rom, h⟩ := witness_rom 3584
  obtain ⟨rom', h'⟩ := witness_rom 3585
  exact ⟨⟨{ State.fresh ⟨1, 1, 0⟩ with pending := [.load rom] }, rom, rfl, by omega, Nat.le_refl 1, Nat.le_refl 1, h⟩,
    ⟨{ State.reset with pending := [.load rom'] }, rom', rfl, by omega, h'⟩⟩

/-- `LoadForgetsHistory`: two states that differ, of blocks built with the same parameters. -/
theorem witness_load_history : ∃ (s s' : State) (rom : List Byte), rom.length = 3584 ∧ s'.params = s.params ∧
    1 ≤ s.fb.width ∧ 1 ≤ s.fb.height ∧ s'.i ≠ s.i := by
  obtain ⟨rom, h⟩ := witness_rom 3584
  exact ⟨State.reset, { State.reset with i := 7 }, rom, h, rfl, by decide, by decide, by decide⟩

/-- `LoadRebuildsTheStateAndCopiesTheRom`: its clauses about bytes inside and outside the ROM. -/
theorem witness_load_bytes : ([0x6A, 0x55] : List Byte)[1]? = some 0x55 ∧ 0x1FF < 0x200 ∧
    0x200 + ([0x6A, 0x55] : List Byte).length ≤ 0x202 := by decide

/-- `FirstStepFetchesTheFirstTwoRomBytes`: the shortest and the longest ROM. -/
theorem witness_first_step :
    (∃ s : State, s.pending = [.load (0x6A :: 0x55 :: [])] ∧ (0x6A#8 :: 0x55#8 :: []).length ≤ 3584 ∧
      s.fb.width = 1 ∧ s.fb.height = 1) ∧
    (∃ (s : State) (bs : List Byte), s.pending = [.load (0x6A :: 0x55 :: bs)] ∧
      (0x6A#8 :: 0x55#8 :: bs).length ≤ 3584 ∧ 1 ≤ s.fb.width ∧ 1 ≤ s.fb.height ∧ bs.length = 3582) := by
  obtain ⟨bs, h⟩ := witness_rom 3582
  exact ⟨⟨{ State.fresh ⟨1, 1, 0⟩ with pending := [.load [0x6A, 0x55]] }, rfl, by decide, rfl, rfl⟩,
    ⟨{ State.reset with pending := [.load (0x6A :: 0x55 :: bs)] }, bs, rfl,
      by simp only [List.length_cons]; omega, Nat.le_of_ble_eq_true rfl, Nat.le_of_ble_eq_true rfl, h⟩⟩

/-- `EveryStepKeepsTheInvariant`: a state with a full stack, a written memory and `pc` at its largest value, of this
hardware and of another that R7 allows. -/
theorem witness_invariant :
    (∃ s t : State, s.Inv ∧ step s = .next t ∧ s.pc = 0x10FE ∧ s.sp = 16 ∧ s.mem ≠ []) ∧
    (∃ s t : State, s.Inv ∧ step s = .next t ∧ s.params = ⟨1, 1, 0x1B0⟩) :=
  ⟨⟨{ State.reset.store 0x300 [1] with pc := 0x10FE, sp := 16, pending := [.step 0 0] }, _,
      ⟨by decide, by decide, by decide, by decide, .inl rfl⟩, rfl, rfl, rfl, by decide⟩,
    ⟨{ State.fresh ⟨1, 1, 0x1B0⟩ with pending := [.construct] }, _,
      ⟨by decide, by decide, by decide, by decide, .inl rfl⟩, rfl, rfl⟩⟩
end

section
/-! PROOFS. What every instruction can do, said once: the frame of each update an instruction makes, and the two ways an
instruction ends (40_step_cycle.md R94, 60_exceptions.md R188). -/

namespace Sys2Proof.Machine

/-! ### Frames of the updates -/

theorem frame_setVFlag (s : State) (x : Reg) (r : Byte × Bool) : Frame [.regs] s (s.setVFlag x r) :=
  (frame_setV s x r.1).trans (frame_setV (s.setV x r.1) VF (flagByte r.2))

theorem frame_jump (s : State) (a : Word) : Frame [.pc] s (s.jump a) := by
  refine ⟨rfl, fun p hp => ?_⟩
  cases p <;> simp_all [Unchanged, State.getV]

theorem frame_index (s : State) (w : Word) : Frame [.index] s { s with i := w } := by
  refine ⟨rfl, fun p hp => ?_⟩
  cases p <;> simp_all [Unchanged, State.getV, State.byteAt]

theorem frame_delay (s : State) (b : Byte) : Frame [.delay] s { s with dt := b } := by
  refine ⟨rfl, fun p hp => ?_⟩
  cases p <;> simp_all [Unchanged, State.getV, State.byteAt]

theorem frame_sound (s : State) (b : Byte) : Frame [.sound] s { s with st := b } := by
  refine ⟨rfl, fun p hp => ?_⟩
  cases p <;> simp_all [Unchanged, State.getV, State.byteAt]

theorem frame_regs (s : State) (v : RegFile) : Frame [.regs] s { s with v := v } := by
  refine ⟨rfl, fun p hp => ?_⟩
  cases p <;> simp_all [Unchanged, State.byteAt]

/-- The framebuffer replaced by one of the same dimensions, which are parameters of the block (00_scope.md R7). -/
theorem frame_screen {s : State} {fb : Framebuffer} (hw : fb.width = s.fb.width) (hh : fb.height = s.fb.height) :
    Frame [.screen] s { s with fb := fb } := by
  refine ⟨by simp [State.params, hw, hh], fun p hp => ?_⟩
  cases p <;> simp_all [Unchanged, State.getV, State.byteAt]

theorem frame_store (s : State) (a : Nat) (bs : List Byte) : Frame [.memory] s (s.store a bs) := by
  refine ⟨rfl, fun p hp => ?_⟩
  cases p <;> simp_all [Unchanged, State.getV]

/-- What `RET` and `CALL` write. -/
theorem frame_stack (s : State) (sp : Fin (Config.stackDepth + 1)) (stack : Vector Word Config.stackDepth) (pc : Word) :
    Frame [.pc, .stack] s { s with sp := sp, stack := stack, pc := pc } := by
  refine ⟨rfl, fun p hp => ?_⟩
  cases p <;> simp_all [Unchanged, State.getV, State.byteAt]

/-! ### The two ways an instruction ends -/

/-- The instruction returned `Ok` with at most the pieces in `ps` changed, and kept memory canonical. -/
structure Completes (ps : List Part) (s t : State) : Prop where
  did : Did ps s t
  memWf : s.memWf → t.memWf

/-- An instruction that ends with `succeed` after an update inside `ps`. -/
theorem completes_succeed {ps : List Part} {s s' : State} (hf : Frame ps s s') (he : s'.firstError = s.firstError)
    (hk : SameHost s s') (hm : s.memWf → s'.memWf) : Completes ps s { s' with result := .ok } :=
  ⟨did_succeed hf he hk, hm⟩

theorem Completes.mono {ps qs : List Part} {s t : State} (h : Completes ps s t) (hsub : ∀ p ∈ ps, p ∈ qs) :
    Completes qs s t := by
  obtain ⟨⟨hf, hr, hk⟩, hm⟩ := h
  exact ⟨⟨hf.mono hsub, hr, hk⟩, hm⟩

/-- An instruction whose update writes a register. -/
theorem completes_setV (s : State) (x : Reg) (b : Byte) : Completes [.regs] s { s.setV x b with result := .ok } :=
  completes_succeed (frame_setV s x b) rfl ⟨rfl, rfl, rfl, rfl⟩ id

theorem completes_setVFlag (s : State) (x : Reg) (r : Byte × Bool) :
    Completes [.regs] s { s.setVFlag x r with result := .ok } :=
  completes_succeed (frame_setVFlag s x r) rfl ⟨rfl, rfl, rfl, rfl⟩ id

theorem completes_jump (s : State) (a : Word) : Completes [.pc] s { s.jump a with result := .ok } :=
  completes_succeed (frame_jump s a) rfl ⟨rfl, rfl, rfl, rfl⟩ id

theorem completes_skipIf (s : State) (c : Bool) : Completes [.pc] s { s.skipIf c with result := .ok } :=
  completes_succeed (frame_skipIf s c) (s.skipIf_firstError c)
    ⟨s.skipIf_keys c, s.skipIf_rnd c, s.skipIf_pending c, s.skipIf_draws c⟩ (by simp [State.memWf])

theorem completes_index (s : State) (w : Word) : Completes [.index] s { s with i := w, result := .ok } :=
  completes_succeed (frame_index s w) rfl ⟨rfl, rfl, rfl, rfl⟩ id

theorem completes_stack (s : State) (sp : Fin (Config.stackDepth + 1)) (stack : Vector Word Config.stackDepth)
    (pc : Word) :
    Completes [.pc, .stack] s { s with sp := sp, stack := stack, pc := pc, result := .ok } :=
  completes_succeed (frame_stack s sp stack pc) rfl ⟨rfl, rfl, rfl, rfl⟩ id

theorem completes_cls (s : State) : Completes [.screen] s { s with fb := s.fb.clear, result := .ok } :=
  completes_succeed (frame_screen s.fb.clear_width s.fb.clear_height) rfl ⟨rfl, rfl, rfl, rfl⟩ id

/-- What `DRW` writes: the framebuffer, then the collision into `VF` (45_display.md R162). -/
theorem completes_drw (s : State) (x0 y0 : Nat) (bs : List Byte) :
    Completes [.regs, .screen] s
      { State.setV { s with fb := (s.fb.draw x0 y0 bs).1 } VF (flagByte (s.fb.draw x0 y0 bs).2) with
        result := .ok } := by
  have hdraw : Frame [.screen] s { s with fb := (s.fb.draw x0 y0 bs).1 } :=
    frame_screen (s.fb.draw_width x0 y0 bs) (s.fb.draw_height x0 y0 bs)
  exact completes_succeed ((hdraw.mono (by simp)).trans ((frame_setV _ _ _).mono (by simp))) rfl
    ⟨rfl, rfl, rfl, rfl⟩ id

/-- A store of a range that exists. -/
theorem completes_store (s : State) {a : Nat} {bs : List Byte} (h : a + bs.length ≤ Config.memSize) :
    Completes [.memory] s { s.store a bs with result := .ok } :=
  completes_succeed (frame_store s a bs) rfl ⟨rfl, rfl, rfl, rfl⟩ fun hm => State.memWf_store hm h

/-- A store of a range that exists, then the advance of `I` (44_index_and_memory.md R154). -/
theorem completes_store_advanceI (s : State) {a : Nat} {bs : List Byte} (h : a + bs.length ≤ Config.memSize)
    (x : Reg) : Completes [.memory, .index] s { (s.store a bs).advanceI x with result := .ok } :=
  completes_succeed (((frame_store s a bs).mono (by simp)).trans ((frame_index _ _).mono (by simp))) rfl
    ⟨rfl, rfl, rfl, rfl⟩ fun hm => State.memWf_store hm h

/-- Registers loaded, then the advance of `I` (44_index_and_memory.md R155). -/
theorem completes_regs_advanceI (s : State) (v : RegFile) (x : Reg) :
    Completes [.regs, .index] s { State.advanceI { s with v := v } x with result := .ok } :=
  completes_succeed (((frame_regs s v).mono (by simp)).trans ((frame_index _ _).mono (by simp))) rfl
    ⟨rfl, rfl, rfl, rfl⟩ id

/-- `LD Vx, K` writes `pc` or a register (46_timers_and_keys.md R171). -/
theorem exec_ldVxK_cases (x : Reg) (s : State) :
    exec (.ldVxK x) s = .next { s.jump (s.pc - 2) with result := .ok } ∨
      ∃ k, exec (.ldVxK x) s = .next { s.setV x (BitVec.ofNat 8 k) with result := .ok } := by
  simp only [exec, execLdVxK]
  cases s.lowestKey with
  | none => exact .inl rfl
  | some k => exact .inr ⟨k, rfl⟩

/-- EVERYTHING AN INSTRUCTION CAN DO: answer a next state, in which it has completed within its pieces or raised an
error. -/
theorem exec_cases (i : Instr) (s : State) :
    ∃ t, exec i s = .next t ∧ (Completes (Instr.parts i) s t ∨ ∃ e, t = s.raise e) := by
  cases i with
  | sys nnn => exact ⟨_, rfl, .inr ⟨_, rfl⟩⟩
  | cls => exact ⟨_, rfl, .inl (completes_cls s)⟩
  | ret =>
    rcases exec_ret_cases s with ⟨-, e⟩ | ⟨_, -, e⟩
    · exact ⟨_, e, .inr ⟨_, rfl⟩⟩
    · exact ⟨_, e, .inl (completes_stack s _ _ _)⟩
  | call nnn =>
    rcases exec_call_cases nnn s with ⟨_, e⟩ | ⟨-, e⟩
    · exact ⟨_, e, .inl (completes_stack s _ _ _)⟩
    · exact ⟨_, e, .inr ⟨_, rfl⟩⟩
  | jp nnn | jpV0 nnn => exact ⟨_, rfl, .inl (completes_jump s _)⟩
  | seImm x kk | sneImm x kk | seReg x y | sneReg x y | skp x | sknp x =>
    exact ⟨_, rfl, .inl (completes_skipIf s _)⟩
  | ldImm x kk | addImm x kk | ldReg x y | orReg x y | andReg x y | xorReg x y | rnd x kk | ldVxDt x =>
    exact ⟨_, rfl, .inl (completes_setV s x _)⟩
  | addReg x y | subReg x y | shrReg x y | subnReg x y | shlReg x y =>
    exact ⟨_, rfl, .inl (completes_setVFlag s x _)⟩
  | ldI nnn => exact ⟨_, rfl, .inl (completes_index s _)⟩
  | addI x | ldF x => exact ⟨_, rfl, .inl (completes_index s _)⟩
  | drw x y n =>
    rcases exec_drw_cases x y n s with ⟨-, e⟩ | ⟨-, e⟩
    · exact ⟨_, e, .inl (completes_drw s _ _ _)⟩
    · exact ⟨_, e, .inr ⟨_, rfl⟩⟩
  | ldVxK x =>
    rcases exec_ldVxK_cases x s with e | ⟨k, e⟩
    · exact ⟨_, e, .inl ((completes_jump s _).mono (by simp [Instr.parts]))⟩
    · exact ⟨_, e, .inl ((completes_setV s x _).mono (by simp [Instr.parts]))⟩
  | ldDtVx x =>
    exact ⟨_, rfl, .inl (completes_succeed (frame_delay s _) rfl ⟨rfl, rfl, rfl, rfl⟩ id)⟩
  | ldStVx x =>
    exact ⟨_, rfl, .inl (completes_succeed (frame_sound s _) rfl ⟨rfl, rfl, rfl, rfl⟩ id)⟩
  | ldB x =>
    rcases exec_ldB_cases x s with ⟨h, e⟩ | ⟨-, e⟩
    · exact ⟨_, e, .inl (completes_store s (bs := decimalDigits _) (h.resolve_left (by decide)))⟩
    · exact ⟨_, e, .inr ⟨_, rfl⟩⟩
  | ldMemVx x =>
    rcases exec_ldMemVx_cases x s with ⟨h, e⟩ | ⟨-, e⟩
    · have hfit := h.resolve_left (Nat.succ_ne_zero _)
      exact ⟨_, e, .inl (completes_store_advanceI s (bs := s.regsUpTo x) (by simpa using hfit) x)⟩
    · exact ⟨_, e, .inr ⟨_, rfl⟩⟩
  | ldVxMem x =>
    rcases exec_ldVxMem_cases x s with ⟨-, e⟩ | ⟨-, e⟩
    · exact ⟨_, e, .inl (completes_regs_advanceI s _ x)⟩
    · exact ⟨_, e, .inr ⟨_, rfl⟩⟩

/-- The state an instruction answers is the one `exec_cases` describes. -/
theorem exec_inv {i : Instr} {s t : State} (h : exec i s = .next t) :
    Completes (Instr.parts i) s t ∨ ∃ e, t = s.raise e := by
  obtain ⟨t', e, ht⟩ := exec_cases i s
  obtain rfl : t = t' := Host.Outcome.next.inj (h.symm.trans e)
  exact ht

theorem exec_frame {i : Instr} {s t : State} (h : exec i s = .next t) : Frame (Instr.parts i) s t ∧ SameHost s t := by
  rcases exec_inv h with ⟨⟨hf, -, hk⟩, -⟩ | ⟨e, rfl⟩
  · exact ⟨hf, hk⟩
  · obtain ⟨hf, -, hk⟩ := raised_raise s e
    exact ⟨hf.mono (by simp), hk⟩

theorem exec_memWf {i : Instr} {s t : State} (h : exec i s = .next t) (hm : s.memWf) : t.memWf := by
  rcases exec_inv h with ⟨-, hwf⟩ | ⟨e, rfl⟩
  · exact hwf hm
  · exact hm

theorem exec_error_recorded {i : Instr} {s t : State} (h : exec i s = .next t) :
    t.result = .ok ∨ t.firstError ≠ none := by
  rcases exec_inv h with ⟨⟨-, ⟨hok, -⟩, -⟩, -⟩ | ⟨e, rfl⟩
  · exact .inl hok
  · exact .inr (by simp)

/-- Settles O51: every instruction completes within its pieces or raises, which changes none. -/
theorem instructionsChangeOnlyTheirPieces : Obligations.InstructionsChangeOnlyTheirPieces := by
  unfold Obligations.InstructionsChangeOnlyTheirPieces
  exact fun _ _ _ h => exec_frame h

end Sys2Proof.Machine
end

section
/-! PROOFS. Totality of the step, and the invariant of reachable states: at reset, and kept by every transaction
(10_state.md R42, 60_exceptions.md R190). -/

namespace Sys2Proof.Machine

/-! ### Every transaction answers a next state of the same block -/

theorem State.construct_params (s : State) : s.construct.params = s.params := by
  rcases s.construct_cases with ⟨-, e⟩ | ⟨-, -, e⟩ <;> rw [e] <;> rfl

theorem State.load_params (rom : List Byte) (s : State) : (s.load rom).params = s.params := by
  rcases s.load_cases rom with ⟨-, e⟩ | ⟨-, -, e⟩ | ⟨-, -, -, e⟩ <;> rw [e] <;> rfl

theorem stepTransaction_next (k : BitVec 16) (b : Byte) (s : State) :
    ∃ t, stepTransaction k b s = .next t ∧ t.params = s.params := by
  rcases stepTransaction_cases k b s with ⟨-, e⟩ | ⟨op, er, -, -, e⟩ | ⟨op, i, -, -, e⟩
  · exact ⟨_, e, rfl⟩
  · exact ⟨_, e, rfl⟩
  · obtain ⟨t, ht, -⟩ := exec_cases i (s.sample k b).advance
    obtain ⟨⟨hp, -⟩, -⟩ := exec_frame ht
    exact ⟨t, e.trans ht, hp⟩

theorem transact_next (tr : Transaction) (s : State) : ∃ t, transact tr s = .next t ∧ t.params = s.params := by
  cases tr with
  | construct => exact ⟨_, rfl, s.construct_params⟩
  | load rom => exact ⟨_, rfl, s.load_params rom⟩
  | step keys rnd => exact stepTransaction_next keys rnd s
  | tick => exact ⟨_, rfl, s.tick_params⟩

/-- Settles O10: the free step and each of the four transactions answer a next state, and so does every instruction. -/
theorem stepAlwaysAnswersNext : Obligations.StepAlwaysAnswersNext := by
  unfold Obligations.StepAlwaysAnswersNext
  intro s
  cases hp : s.pending with
  | nil =>
    rw [step_of_empty hp]
    exact stepTransaction_next _ _ _
  | cons tr rest =>
    rw [step_of_pending hp]
    exact transact_next tr { s with pending := rest }

/-! ### The invariant without a Step -/

/-- The state of a block built with parameters that R7 allows, whatever the model's own fields hold. -/
theorem State.fresh_inv {p : Params} (hp : p.Valid) (pending : List Transaction) (draws : Nat)
    (firstError : Option ErrorKind) :
    State.Inv { State.fresh p with pending := pending, draws := draws, firstError := firstError } where
  params_valid := hp
  mem_wf := State.fresh_memWf p
  pc_le := by simp [State.fresh]
  stack_le k hk := by simp [State.fresh] at hk
  error_recorded := .inl rfl

/-- Settles O59: the hardware's parameters are ones R7 allows. -/
theorem invariantHoldsAtReset : Obligations.InvariantHoldsAtReset := by
  unfold Obligations.InvariantHoldsAtReset
  exact State.fresh_inv (p := Config.hardware) (by decide) [] 0 none

/-- The invariant speaks of the parameters, memory, `pc`, the stack and the recorded error only. -/
theorem State.Inv.of_same {s t : State} (h : s.Inv) (hparams : t.params = s.params) (hmem : t.memWf)
    (hpc : t.pc = s.pc) (hsp : t.sp = s.sp) (hstack : t.stack = s.stack)
    (herr : t.result = .ok ∨ t.firstError ≠ none) : t.Inv where
  params_valid := hparams ▸ h.params_valid
  mem_wf := hmem
  pc_le := hpc ▸ h.pc_le
  stack_le := by rw [hsp, hstack]; exact h.stack_le
  error_recorded := herr

theorem State.Inv.raise {s : State} (h : s.Inv) (e : ErrorKind) : (s.raise e).Inv :=
  h.of_same rfl h.mem_wf rfl rfl rfl (.inr (by simp))

theorem State.Inv.construct {s : State} (h : s.Inv) : s.construct.Inv := by
  rcases s.construct_cases with ⟨-, e⟩ | ⟨-, -, e⟩
  · exact e ▸ h.raise _
  · exact e ▸ State.fresh_inv h.params_valid _ _ _

/-- The longest ROM ends where memory ends (20_memory.md R50). -/
theorem rom_fits {rom : List Byte} (hlen : rom.length ≤ Config.romMax) :
    Config.romBase + rom.length ≤ Config.memSize := by
  simp only [Config.romMax, Config.romBase, Config.memSize] at hlen ⊢
  omega

theorem State.Inv.load {s : State} (h : s.Inv) (rom : List Byte) : (s.load rom).Inv := by
  rcases s.load_cases rom with ⟨-, e⟩ | ⟨-, -, e⟩ | ⟨hlen, -, -, e⟩
  · exact e ▸ h.raise _
  · exact e ▸ h.raise _
  · have hfresh := State.fresh_inv h.params_valid s.pending s.draws s.firstError
    rw [e]
    exact hfresh.of_same rfl (State.memWf_store hfresh.mem_wf (rom_fits hlen)) rfl rfl rfl (.inl rfl)

/-! ### The invariant over an instruction: `pc` already advanced, so it lies between 2 and 4096 -/

theorem State.skipIf_pc_toNat_le {s : State} (h : s.pc.toNat ≤ 4096) (c : Bool) :
    (s.skipIf c).pc.toNat ≤ 0x10FE := by
  rw [State.skipIf_pc]
  cases c
  · simpa using Nat.le_trans h (by decide)
  · simp only [if_true]
    bv_omega

/-- An instruction that is no writer of `pc` leaves it. -/
theorem exec_pc_eq {i : Instr} {s t : State} (h : exec i s = .next t) (hi : Part.pc ∉ Instr.parts i) : t.pc = s.pc := by
  obtain ⟨⟨-, hf⟩, -⟩ := exec_frame h
  exact hf .pc hi

/-- Where an instruction leaves `pc` (10_state.md R25): the largest value is that of `JP V0, nnn`. -/
theorem exec_pc_le {i : Instr} {s t : State} (h : exec i s = .next t) (hs : s.Inv) (hlo : 2 ≤ s.pc.toNat)
    (hhi : s.pc.toNat ≤ 4096) : t.pc.toNat ≤ 0x10FE := by
  cases i
  case ret =>
    rcases exec_ret_cases s with ⟨-, e⟩ | ⟨hk, hpos, e⟩ <;> obtain rfl := Host.Outcome.next.inj (h.symm.trans e)
    · exact hs.pc_le
    · exact Nat.le_trans (hs.stack_le ⟨_, hk⟩ (Nat.sub_lt hpos Nat.one_pos)) (by decide)
  case call nnn =>
    rcases exec_call_cases nnn s with ⟨hk, e⟩ | ⟨-, e⟩ <;> obtain rfl := Host.Outcome.next.inj (h.symm.trans e)
    · have := nnn.isLt
      simp only [zextAddr_toNat]
      omega
    · exact hs.pc_le
  case jp nnn =>
    obtain rfl := Host.Outcome.next.inj h
    have := nnn.isLt
    simp only [State.jump_pc, zextAddr_toNat]
    omega
  case jpV0 nnn =>
    obtain rfl := Host.Outcome.next.inj h
    have := nnn.isLt
    have := (s.getV V0).isLt
    simp only [State.jump_pc, zextAddr_add_zextByte_toNat]
    omega
  case ldVxK x =>
    rcases exec_ldVxK_cases x s with e | ⟨k, e⟩ <;> obtain rfl := Host.Outcome.next.inj (h.symm.trans e)
    · simp only [State.jump_pc]
      bv_omega
    · exact hs.pc_le
  case seImm | sneImm | seReg | sneReg | skp | sknp =>
    obtain rfl := Host.Outcome.next.inj h
    exact State.skipIf_pc_toNat_le hhi _
  all_goals
    rw [exec_pc_eq h (by simp [Instr.parts])]
    exact hs.pc_le

/-- An instruction that is no writer of the stack keeps its live return addresses; `RET` drops one and `CALL` adds
`pc`. -/
theorem exec_stack_le {i : Instr} {s t : State} (h : exec i s = .next t) (hs : s.Inv) (hhi : s.pc.toNat ≤ 4096) :
    ∀ k : Fin Config.stackDepth, k.val < t.sp.val → t.stack[k].toNat ≤ 4096 := by
  by_cases hi : Part.stack ∈ Instr.parts i
  · cases i
    case ret =>
      rcases exec_ret_cases s with ⟨-, e⟩ | ⟨hk, hpos, e⟩ <;> obtain rfl := Host.Outcome.next.inj (h.symm.trans e)
      · exact hs.stack_le
      · exact fun k hlt => hs.stack_le k (Nat.lt_of_lt_of_le hlt (Nat.sub_le _ _))
    case call nnn =>
      rcases exec_call_cases nnn s with ⟨hk, e⟩ | ⟨-, e⟩ <;> obtain rfl := Host.Outcome.next.inj (h.symm.trans e)
      · intro k hlt
        by_cases hks : s.sp.val = k.val
        · simpa [hks] using hhi
        · simpa [Vector.getElem_set_ne, hks] using hs.stack_le k (by simp at hlt; omega)
      · exact hs.stack_le
    all_goals simp [Instr.parts] at hi
  · obtain ⟨⟨-, hf⟩, -⟩ := exec_frame h
    obtain ⟨hsp, hstack⟩ := hf .stack hi
    rw [hsp, hstack]
    exact hs.stack_le

theorem exec_keeps_inv {i : Instr} {s t : State} (h : exec i s = .next t) (hs : s.Inv) (hlo : 2 ≤ s.pc.toNat)
    (hhi : s.pc.toNat ≤ 4096) : t.Inv where
  params_valid := by
    obtain ⟨⟨hp, -⟩, -⟩ := exec_frame h
    exact hp ▸ hs.params_valid
  mem_wf := exec_memWf h hs.mem_wf
  pc_le := exec_pc_le h hs hlo hhi
  stack_le := exec_stack_le h hs hhi
  error_recorded := exec_error_recorded h

/-! ### The invariant over every transaction -/

/-- After a fetch that succeeds, `pc` advanced lies between 2 and 4096. -/
theorem State.advance_pc_bounds {s : State} {op : Word} (hf : s.fetch = .ok op) :
    2 ≤ s.advance.pc.toNat ∧ s.advance.pc.toNat ≤ 4096 := by
  have hlt : s.pc.toNat + 1 < 4096 := State.pc_lt_of_fetch hf
  rw [State.advance_pc]
  constructor <;> bv_omega

theorem State.Inv.advance {s : State} (h : s.Inv) {op : Word} (hf : s.fetch = .ok op) : s.advance.Inv where
  params_valid := h.params_valid
  mem_wf := h.mem_wf
  pc_le := Nat.le_trans (State.advance_pc_bounds hf).2 (by decide)
  stack_le := h.stack_le
  error_recorded := h.error_recorded

theorem stepTransaction_keeps_inv {k : BitVec 16} {b : Byte} {s t : State} (hs : s.Inv)
    (h : stepTransaction k b s = .next t) : t.Inv := by
  have hsample : (s.sample k b).Inv := hs.of_same rfl hs.mem_wf rfl rfl rfl hs.error_recorded
  rcases stepTransaction_cases k b s with ⟨-, e⟩ | ⟨op, er, hf, -, e⟩ | ⟨op, i, hf, -, e⟩
  · obtain rfl := Host.Outcome.next.inj (h.symm.trans e)
    exact hsample.raise _
  · obtain rfl := Host.Outcome.next.inj (h.symm.trans e)
    exact (hsample.advance hf).raise _
  · obtain ⟨hlo, hhi⟩ := State.advance_pc_bounds hf
    exact exec_keeps_inv (e.symm.trans h) (hsample.advance hf) hlo hhi

theorem transact_keeps_inv {tr : Transaction} {s t : State} (hs : s.Inv) (h : transact tr s = .next t) : t.Inv := by
  cases tr with
  | construct => exact Host.Outcome.next.inj h ▸ hs.construct
  | load rom => exact Host.Outcome.next.inj h ▸ hs.load rom
  | step keys rnd => exact stepTransaction_keeps_inv hs h
  | tick => exact Host.Outcome.next.inj h ▸ hs.of_same rfl hs.mem_wf rfl rfl rfl hs.error_recorded

/-- Settles O60: a queued transaction and the free step alike start from a state of the invariant and keep it. -/
theorem everyStepKeepsTheInvariant : Obligations.EveryStepKeepsTheInvariant := by
  unfold Obligations.EveryStepKeepsTheInvariant
  intro s t hs h
  cases hp : s.pending with
  | nil =>
    rw [step_of_empty hp] at h
    refine stepTransaction_keeps_inv ?_ h
    exact hs.of_same rfl hs.mem_wf rfl rfl rfl hs.error_recorded
  | cons tr rest =>
    rw [step_of_pending hp] at h
    refine transact_keeps_inv ?_ h
    exact hs.of_same rfl hs.mem_wf rfl rfl rfl hs.error_recorded

end Sys2Proof.Machine
end

section
/-! PROOFS. Construct and Load: the reset state piece by piece, the font, the copy of a ROM, and a framebuffer that cannot
be allocated (70_reset_and_hazards.md R210 to R212, 60_exceptions.md R186). -/

namespace Sys2Proof.Machine

/-! ### The reset state, piece by piece (10_state.md R41) -/

@[simp] theorem State.fresh_getV (p : Params) (r : Reg) : (State.fresh p).getV r = 0 := by
  simp [State.getV, State.fresh]

@[simp] theorem State.fresh_stack (p : Params) (k : Fin Config.stackDepth) : (State.fresh p).stack[k] = 0 := by
  simp [State.fresh]

theorem State.fresh_byteAt (p : Params) (a : Nat) : (State.fresh p).byteAt a = resetByte p.fontBase a := rfl

theorem State.fresh_pixel (p : Params) (r c : Nat) : (State.fresh p).fb.pixel r c = false :=
  Framebuffer.pixel_zeroed r c

/-- Settles O1: Construct leaves the fresh state of the block's parameters, beside the model's own fields. -/
theorem constructLeavesResetState : Obligations.ConstructLeavesResetState := by
  unfold Obligations.ConstructLeavesResetState
  intro Fresh
  have hfresh : ∀ p, Fresh p (State.fresh p) := fun p =>
    ⟨rfl, State.fresh_getV p, rfl, rfl, rfl, State.fresh_stack p, rfl, rfl, rfl, State.fresh_byteAt p,
      State.fresh_pixel p, rfl⟩
  refine ⟨hfresh Config.hardware, fun s rest hp hw hh => ?_⟩
  rw [step_of_pending hp]
  refine ⟨_, rfl, ?_⟩
  rcases State.construct_cases { s with pending := rest } with ⟨h0, -⟩ | ⟨-, -, e⟩
  · exact absurd h0 (by simp only; omega)
  · rw [e]
    exact ⟨hfresh s.params, rfl, rfl, rfl⟩

/-! ### The font (20_memory.md R57) -/

theorem resetByte_font (base : Nat) {k : Nat} (hk : k < 80) : resetByte base (base + k) = fontBytes.getD k 0 := by
  simp [resetByte, hk]

/-- The five bytes of glyph `d` in the font. -/
def fontGlyph (d : Nat) : List Byte := (fontBytes.drop (5 * d)).take 5

/-- The bytes of glyph `d` in memory, wherever the font lies. -/
theorem State.fresh_glyph (p : Params) {d : Nat} (hd : d < 16) :
    (State.fresh p).bytesAt (p.fontBase + 5 * d) 5 = fontGlyph d := by
  have hlen : fontBytes.length = 80 := rfl
  apply List.ext_getElem?
  intro k
  rw [State.bytesAt_getElem?, fontGlyph]
  split
  · next hk =>
    rw [State.fresh_byteAt, Nat.add_assoc, resetByte_font _ (by omega), List.getElem?_take_of_lt hk,
      List.getElem?_drop, List.getD_eq_getElem?_getD, List.getElem?_eq_getElem (by omega), Option.getD_some]
  · next hk => rw [List.getElem?_take_eq_none (by omega)]

theorem fontGlyph_low_nibble {d : Nat} {b : Byte} (hb : b ∈ fontGlyph d) : b &&& 0x0F#8 = 0 := by
  have hfont : fontBytes.all (fun b => b &&& 0x0F#8 == 0) = true := rfl
  exact eq_of_beq (List.all_eq_true.1 hfont b (List.mem_of_mem_drop (List.mem_of_mem_take hb)))

/-- Settles O2: the table of R57 is the list of the sixteen glyphs of the font. -/
theorem fontGlyphBytes : Obligations.FontGlyphBytes := by
  unfold Obligations.FontGlyphBytes
  refine ⟨rfl, fun p g hg => ?_⟩
  have hrow : g ∈ (List.range 16).map fun d => (d, fontGlyph d) := hg
  obtain ⟨d, hd, rfl⟩ := List.mem_map.1 hrow
  exact ⟨State.fresh_glyph p (List.mem_range.1 hd), fun b hb => fontGlyph_low_nibble hb⟩

/-! ### Allocation (60_exceptions.md R186) -/

theorem Framebuffer.allocate_cases (W H : Nat) :
    ((W = 0 ∨ H = 0) ∧ Framebuffer.allocate W H = .error .invalidDimensions) ∨
      (¬ (W = 0 ∨ H = 0) ∧ Framebuffer.allocate W H = .ok (Framebuffer.zeroed W H)) := by
  unfold Framebuffer.allocate
  split
  · next h => exact .inl ⟨h, rfl⟩
  · next h => exact .inr ⟨h, rfl⟩

/-- A block with a zero dimension is neither constructed nor loaded (log entry 7). -/
theorem State.construct_of_zero_dimension {s : State} (h : s.fb.width = 0 ∨ s.fb.height = 0) :
    s.construct = s.raise .invalidDimensions := by
  rcases s.construct_cases with ⟨-, e⟩ | ⟨hw, hh, -⟩
  · exact e
  · omega

theorem State.load_of_zero_dimension {s : State} (h : s.fb.width = 0 ∨ s.fb.height = 0) {rom : List Byte}
    (hlen : rom.length ≤ Config.romMax) : s.load rom = s.raise .invalidDimensions := by
  rcases s.load_cases rom with ⟨hlt, -⟩ | ⟨-, -, e⟩ | ⟨-, hw, hh, -⟩
  · omega
  · exact e
  · omega

/-- Settles O43: the clauses on Construct and Load are `raise` from the state with the transaction taken off the
queue. -/
theorem allocationFailsExactlyOnZeroDimensions : Obligations.AllocationFailsExactlyOnZeroDimensions := by
  unfold Obligations.AllocationFailsExactlyOnZeroDimensions
  refine ⟨fun W H => ?_, fun W H fb hfb => ?_, fun s tr rest hp h0 htr => ?_, rfl, rfl, by decide⟩
  · rcases Framebuffer.allocate_cases W H with ⟨h, e⟩ | ⟨h, e⟩ <;> simp [e, h]
  · rcases Framebuffer.allocate_cases W H with ⟨-, e⟩ | ⟨-, e⟩
    · rw [e] at hfb; cases hfb
    · obtain rfl := Except.ok.inj (e.symm.trans hfb)
      exact ⟨rfl, rfl, Framebuffer.pixel_zeroed⟩
  · obtain ⟨hframe, hret, -⟩ := raised_raise { s with pending := rest } .invalidDimensions
    refine ⟨_, (step_of_pending hp).trans ?_, hframe, hret, rfl⟩
    rcases htr with rfl | ⟨rom, hlen, rfl⟩
    · exact congrArg Host.Outcome.next (State.construct_of_zero_dimension (s := { s with pending := rest }) h0)
    · exact congrArg Host.Outcome.next (State.load_of_zero_dimension (s := { s with pending := rest }) h0 hlen)

/-! ### Load (70_reset_and_hazards.md R211, R212) -/

/-- The state a Load of a ROM that fits leaves in a block with a screen: the fresh one, beside the model's own fields, with
the ROM copied. -/
theorem State.load_of_fits {s : State} (hw : 1 ≤ s.fb.width) (hh : 1 ≤ s.fb.height) {rom : List Byte}
    (hlen : rom.length ≤ Config.romMax) :
    s.load rom = State.store
      { State.fresh s.params with pending := s.pending, draws := s.draws, firstError := s.firstError }
      Config.romBase rom := by
  rcases s.load_cases rom with ⟨hlt, -⟩ | ⟨-, h0, -⟩ | ⟨-, -, -, e⟩
  · omega
  · omega
  · exact e

/-- Settles O55: a store at 0x200 into the fresh state. -/
theorem loadRebuildsTheStateAndCopiesTheRom : Obligations.LoadRebuildsTheStateAndCopiesTheRom := by
  unfold Obligations.LoadRebuildsTheStateAndCopiesTheRom
  intro s rom rest hp hlen hw hh
  have hfit := rom_fits hlen
  have hwf := State.fresh_memWf s.params
  have hload := State.load_of_fits (s := { s with pending := rest }) hw hh hlen
  refine ⟨_, (step_of_pending hp).trans (congrArg Host.Outcome.next hload), rfl, rfl, ?_, ?_, ?_, ?_⟩
  · intro j b hj
    exact (State.byteAt_store (s := State.fresh s.params) hwf hfit _).trans (by simp [Config.romBase, hj])
  · exact fun a ha => State.byteAt_store_outside (s := State.fresh s.params) hwf hfit ha
  · exact frame_store (State.fresh s.params) Config.romBase rom
  · exact State.memWf_store hwf hfit

/-- Settles O57: what a Load leaves depends on the parameters, which it keeps, and the ROM. -/
theorem loadForgetsHistory : Obligations.LoadForgetsHistory := by
  unfold Obligations.LoadForgetsHistory
  intro s s' rom hlen hparams hw hh
  obtain ⟨ew, eh, -⟩ := Params.mk.inj hparams
  have hload := State.load_of_fits hw hh hlen
  have hload' := State.load_of_fits (ew ▸ hw) (eh ▸ hh) hlen
  rw [hparams] at hload'
  refine ⟨?_, by rw [hload, hload']; rfl, ?_⟩
  · rw [hload, hload']
    exact Frame.refl [] (State.store (State.fresh s.params) Config.romBase rom)
  · rw [hload]
    refine State.load_of_fits ?_ ?_ hlen
    · exact hw
    · exact hh

end Sys2Proof.Machine
end

section
/-! PROOFS. The instructions whose meaning depends on the parameters of the block: the index register and the screen
(44_index_and_memory.md R151, R152; 45_display.md R161, R162). -/

namespace Sys2Proof.Machine

/-! ### The index register -/

/-- The address of a hexadecimal digit's glyph fits in `I` for every font address that R7 allows. -/
theorem glyphAddress_toNat {base : Nat} (h : base + 80 ≤ 0x200) (b : Byte) :
    (BitVec.ofNat 16 (glyphAddress base (lowNibble b))).toNat = base + 5 * (b.toNat % 16) := by
  rw [BitVec.toNat_ofNat, glyphAddress, lowNibble, Nat.mod_eq_of_lt (by omega)]

/-- Settles O33: both instructions write `I` alone. -/
theorem addIWrapsAndLdFPointsAtTheGlyph : Obligations.AddIWrapsAndLdFPointsAtTheGlyph := by
  unfold Obligations.AddIWrapsAndLdFPointsAtTheGlyph
  intro x s
  refine ⟨⟨_, rfl, ?_, (completes_index s _).did⟩, ⟨_, rfl, ?_, (completes_index s _).did⟩, rfl⟩
  · have := (s.getV x).isLt
    simp only [BitVec.toNat_add, BitVec.toNat_setWidth]
    omega
  · exact fun h => glyphAddress_toNat h (s.getV x)

/-! ### CLS -/

/-- A clear framebuffer is seen clear, in its own dimensions. -/
theorem State.snapshot_clear {s : State} (hclear : ∀ r c, s.fb.pixel r c = false) :
    ∀ row ∈ s.snapshot, row.length = s.fb.width ∧ ∀ p ∈ row, p = false := by
  intro row h
  obtain ⟨r, -, rfl⟩ := List.mem_map.1 h
  refine ⟨by simp, fun p hp => ?_⟩
  obtain ⟨c, -, rfl⟩ := List.mem_map.1 hp
  exact hclear r c

/-- Settles O38: the framebuffer becomes a clear one of its own dimensions, and nothing else is written. -/
theorem clsClearsEveryPixel : Obligations.ClsClearsEveryPixel := by
  unfold Obligations.ClsClearsEveryPixel
  refine ⟨fun s => ?_, rfl, rfl⟩
  exact ⟨_, rfl, s.fb.pixel_clear, s.fb.clear_width, s.fb.clear_height, by simp [State.snapshot],
    State.snapshot_clear (s := { s with fb := s.fb.clear, result := .ok }) s.fb.pixel_clear, (completes_cls s).did⟩

/-! ### DRW -/

theorem flagByte_zero_or_one (f : Bool) : flagByte f = 0 ∨ flagByte f = 1 := by
  cases f <;> decide

/-- Settles O40: the pixels and the collision are those of `State.draw_flips`; a pixel that is hit exists. -/
theorem drwFlipsOncePerSpriteBitOnAnyScreen : Obligations.DrwFlipsOncePerSpriteBitOnAnyScreen := by
  unfold Obligations.DrwFlipsOncePerSpriteBitOnAnyScreen
  intro x y n s hW hH hn
  have hin : inRange s.i.toNat n.val := by
    simp only [inRange, Config.memSize]
    omega
  obtain ⟨t, ht, hfb, hVF, hregs, hdid⟩ := exec_drw_next x y n hin
  obtain ⟨hpixel, hhit⟩ := s.draw_flips (s.getV x).toNat (s.getV y).toNat n.val hW hH
  refine ⟨t, ht, fun r c _ _ => hfb ▸ hpixel r c, hVF ▸ flagByte_zero_or_one _, ?_, hregs, hdid⟩
  rw [hVF]
  refine (flagByte_eq_one.trans hhit).trans ⟨?_, ?_⟩
  · rintro ⟨r, c, h⟩
    have h1 : 1 ≤ spriteHits s (s.getV x).toNat (s.getV y).toNat n.val r c := by omega
    obtain ⟨hr, hc⟩ := spriteHits_inside hW hH h1
    exact ⟨r, c, hr, hc, h⟩
  · rintro ⟨r, c, -, -, h⟩
    exact ⟨r, c, h⟩

/-- What a sprite hits depends on `I`, memory and the dimensions of the screen alone. -/
theorem spriteHits_congr {s t : State} (hi : t.i = s.i) (hm : ∀ a, t.byteAt a = s.byteAt a)
    (hp : t.params = s.params) (x0 y0 n r c : Nat) : spriteHits t x0 y0 n r c = spriteHits s x0 y0 n r c := by
  obtain ⟨hw, hh, -⟩ := Params.mk.inj hp
  simp only [spriteHits, hi, hm, hw, hh]

theorem spriteCovers_congr {s t : State} (hi : t.i = s.i) (hm : ∀ a, t.byteAt a = s.byteAt a)
    (hp : t.params = s.params) {x0 y0 n r c : Nat} : SpriteCovers t x0 y0 n r c ↔ SpriteCovers s x0 y0 n r c := by
  obtain ⟨hw, hh, -⟩ := Params.mk.inj hp
  simp only [SpriteCovers, hi, hm, hw, hh]

/-- A sprite in memory on a screen on which no two of its bits meet: the pixels it covers are flipped, and the collision
is a covered pixel that was set (45_display.md R162). -/
theorem State.draw_covers (s : State) (x0 y0 n : Nat) (hW : 8 ≤ s.fb.width) (hH : 1 ≤ s.fb.height)
    (hn : n ≤ s.fb.height) :
    (∀ r c, SpriteCovers s x0 y0 n r c →
      (s.fb.draw x0 y0 (s.bytesAt s.i.toNat n)).1.pixel r c = !s.fb.pixel r c) ∧
    ((s.fb.draw x0 y0 (s.bytesAt s.i.toNat n)).2 = true ↔
      ∃ r c, SpriteCovers s x0 y0 n r c ∧ s.fb.pixel r c = true) := by
  obtain ⟨hpixel, hhit⟩ := s.fb.draw_spec x0 y0 (s.bytesAt s.i.toNat n) hW hH (by simpa using hn)
  simp only [spriteCovers_iff]
  exact ⟨fun r c h => by rw [hpixel, h, Bool.xor_true], hhit⟩

/-- Settles O42: the second draw hits what the first one did, and flipping twice flips nothing; it collides where the
first one set a pixel. -/
theorem drwTwiceRestoresTheScreen : Obligations.DrwTwiceRestoresTheScreen := by
  unfold Obligations.DrwTwiceRestoresTheScreen
  intro x y n s hW hH hx hy hn
  obtain ⟨t, ht, hfb, -, hregs, ⟨hp, hframe⟩, -⟩ := exec_drw_next x y n (s := s) (.inr hn)
  have hi : t.i = s.i := hframe .index (by simp)
  have hm : ∀ a, t.byteAt a = s.byteAt a := hframe .memory (by simp)
  obtain ⟨hw, hh, -⟩ := Params.mk.inj hp
  obtain ⟨u, hu, hfb', hVF', hregs', ⟨hp', hframe'⟩, -⟩ := exec_drw_next x y n (s := t) (.inr (hi ▸ hn))
  rw [hregs x hx, hregs y hy] at hfb' hVF'
  have hrestored : u.fb = s.fb := by
    obtain ⟨hpixel, -⟩ := s.draw_flips (s.getV x).toNat (s.getV y).toNat n.val hW hH
    obtain ⟨hpixel', -⟩ := t.draw_flips (s.getV x).toNat (s.getV y).toNat n.val (hw ▸ hW) (hh ▸ hH)
    obtain ⟨hw', hh', -⟩ := Params.mk.inj (hp'.trans hp)
    refine Framebuffer.ext_of_pixel hw' hh' fun r c _ _ => ?_
    rw [hfb', hpixel', spriteHits_congr hi hm hp, hfb, hpixel, Bool.xor_assoc, Bool.xor_self, Bool.xor_false]
  refine ⟨t, u, ht, hu, hrestored, fun hW8 hH8 => ?_, ⟨hp'.trans hp, fun p hpart => ?_⟩,
    fun r hr => (hregs' r hr).trans (hregs r hr)⟩
  · obtain ⟨hpixel, -⟩ := s.draw_covers (s.getV x).toNat (s.getV y).toNat n.val hW8 hH hH8
    obtain ⟨-, hhit⟩ := t.draw_covers (s.getV x).toNat (s.getV y).toNat n.val (hw ▸ hW8) (hh ▸ hH) (hh ▸ hH8)
    rw [hVF']
    refine (flagByte_eq_one.trans hhit).trans (exists_congr fun r => exists_congr fun c => ?_)
    rw [spriteCovers_congr hi hm hp]
    refine and_congr_right fun hcov => ?_
    rw [hfb, hpixel r c hcov, Bool.not_eq_true']
  · by_cases hscreen : p = .screen
    · subst hscreen
      exact hrestored
    · have hout : p ∉ [Part.regs, .screen] := by simpa [hscreen] using hpart
      exact (hframe p hout).trans (hframe' p hout)

end Sys2Proof.Machine
end

section
/-! PROOFS. The register file: what an instruction may write of it, and the flag in `VF` (10_state.md R21, R26). -/

namespace Sys2Proof.Machine

/-! ### The register file, register by register -/

theorem State.raise_getV (s : State) (e : ErrorKind) (r : Reg) : (s.raise e).getV r = s.getV r := rfl

/-- The flag is written last, so it wins over a result in `VF` (43_load_and_alu.md R130). -/
theorem State.getV_setVFlag_VF (s : State) (x : Reg) (r : Byte × Bool) : (s.setVFlag x r).getV VF = flagByte r.2 :=
  State.getV_setV_same _ VF _

theorem State.getV_setVFlag_other (s : State) {x r' : Reg} (h : ¬ (r' = x ∨ r' = VF)) (r : Byte × Bool) :
    (s.setVFlag x r).getV r' = s.getV r' := by
  obtain ⟨hx, hVF⟩ := not_or.1 h
  rw [State.getV_setVFlag, if_neg hVF, if_neg hx]

/-- Loading `n` bytes from `V[0]` leaves the registers from `V[n]` on. -/
theorem RegFile.setFrom_zero_above (v : RegFile) {bs : List Byte} {r : Reg} (h : bs.length ≤ r.val) :
    (RegFile.setFrom v 0 bs)[r] = v[r] := by
  refine (RegFile.getElem_setFrom bs v 0 r.val r.isLt).trans ?_
  rw [if_pos (Nat.zero_le _), Nat.sub_zero, List.getElem?_eq_none h, Option.getD_none]
  rfl

/-! ### The instructions -/

/-- An instruction that does not have the register file among its pieces leaves every register. -/
theorem exec_getV_of_regs_not_mem {i : Instr} {s t : State} (h : exec i s = .next t) (hi : Part.regs ∉ Instr.parts i)
    (r : Reg) : t.getV r = s.getV r := by
  obtain ⟨⟨-, hframe⟩, -⟩ := exec_frame h
  exact hframe .regs hi r

/-- The frame of an instruction inside the register file (10_state.md R21). -/
theorem exec_getV_of_not_writesReg {i : Instr} {s t : State} (h : exec i s = .next t) {r : Reg}
    (hr : ¬ Instr.writesReg i r) : t.getV r = s.getV r := by
  cases i with
  | ldImm x kk | addImm x kk | ldReg x y | orReg x y | andReg x y | xorReg x y | rnd x kk | ldVxDt x =>
    obtain rfl := Host.Outcome.next.inj h
    exact s.getV_setV_other hr _
  | addReg x y | subReg x y | shrReg x y | subnReg x y | shlReg x y =>
    obtain rfl := Host.Outcome.next.inj h
    exact s.getV_setVFlag_other hr _
  | drw x y n =>
    rcases exec_drw_cases x y n s with ⟨-, e⟩ | ⟨-, e⟩ <;> obtain rfl := Host.Outcome.next.inj (e.symm.trans h)
    · exact State.getV_setV_other _ hr _
    · exact s.raise_getV _ r
  | ldVxK x =>
    rcases exec_ldVxK_cases x s with e | ⟨k, e⟩ <;> obtain rfl := Host.Outcome.next.inj (e.symm.trans h)
    · rfl
    · exact s.getV_setV_other hr _
  | ldVxMem x =>
    rcases exec_ldVxMem_cases x s with ⟨-, e⟩ | ⟨-, e⟩ <;> obtain rfl := Host.Outcome.next.inj (e.symm.trans h)
    · have hx : x.val + 1 ≤ r.val := Nat.lt_of_not_le hr
      exact RegFile.setFrom_zero_above s.v (by simpa using hx)
    · exact s.raise_getV _ r
  | sys _ | cls | ret | jp _ | call _ | seImm _ _ | sneImm _ _ | seReg _ _ | sneReg _ _ | ldI _ | jpV0 _ | skp _
  | sknp _ | ldDtVx _ | ldStVx _ | addI _ | ldF _ | ldB _ | ldMemVx _ =>
    exact exec_getV_of_regs_not_mem h (by simp [Instr.parts]) r

/-- A `DRW` that returns `Ok` leaves the collision in `VF` (45_display.md R162). -/
theorem exec_drw_VF {x y : Reg} {n : Fin 16} {s t : State} (h : exec (.drw x y n) s = .next t) (hok : t.result = .ok) :
    ∃ hit, t.getV VF = flagByte hit := by
  rcases exec_drw_cases x y n s with ⟨-, e⟩ | ⟨-, e⟩ <;> obtain rfl := Host.Outcome.next.inj (e.symm.trans h)
  · exact ⟨_, State.getV_setV_same _ VF _⟩
  · cases hok

/-- Each of the six flag writers leaves a flag in `VF` when it returns `Ok` (10_state.md R26). -/
theorem exec_flagWriter_VF {i : Instr} {s t : State} (h : exec i s = .next t) (hok : t.result = .ok)
    (hi : ∃ x y n, i = .addReg x y ∨ i = .subReg x y ∨ i = .shrReg x y ∨ i = .subnReg x y ∨ i = .shlReg x y ∨
      i = .drw x y n) : ∃ f, t.getV VF = flagByte f := by
  obtain ⟨x, y, n, rfl | rfl | rfl | rfl | rfl | rfl⟩ := hi
  pick_goal 6
  · exact exec_drw_VF h hok
  all_goals
    obtain rfl := Host.Outcome.next.inj h
    exact ⟨_, s.getV_setVFlag_VF x _⟩

/-- Settles O52: a register outside `Instr.writesReg` is framed, and a flag is a byte 0 or 1. -/
theorem registersChangeOnlyAsDestinations : Obligations.RegistersChangeOnlyAsDestinations := by
  unfold Obligations.RegistersChangeOnlyAsDestinations
  refine fun i s t h => ⟨fun r => ?_, fun hok hi => ?_⟩
  · exact fun hne => by_contra fun hr => hne (exec_getV_of_not_writesReg h hr)
  · obtain ⟨f, hf⟩ := exec_flagWriter_VF h hok hi
    exact hf ▸ flagByte_zero_or_one f

end Sys2Proof.Machine
end

section
/-! PROOFS. Memory as one array for data and instructions: a store into the instruction stream is what the next fetch
reads (20_memory.md R60, R63). -/

namespace Sys2Proof.Machine

/-- A fetch from an address with a byte after it answers the two bytes there (40_step_cycle.md R91). -/
theorem State.fetch_of_pc_lt {s : State} (h : s.pc.toNat + 1 < Config.memSize) :
    s.fetch = .ok (opcodeOfBytes (s.byteAt s.pc.toNat) (s.byteAt (s.pc.toNat + 1))) := by
  rcases s.fetch_cases with ⟨hge, -⟩ | ⟨-, e⟩
  · exact absurd h (Nat.not_lt.2 hge)
  · exact e

/-- The byte at place `k` of a stored range. -/
theorem State.byteAt_store_of_getElem? {s : State} (hm : s.memWf) {a : Nat} {bs : List Byte}
    (hfit : a + bs.length ≤ Config.memSize) {k : Nat} {b : Byte} (hk : bs[k]? = some b) :
    (s.store a bs).byteAt (a + k) = b := by
  rw [State.byteAt_store hm hfit, if_pos (Nat.le_add_right a k), Nat.add_sub_cancel_left, hk, Option.getD_some]

/-- A store of `V[0] .. V[x]` at `a` leaves `V[k]` at `a + k` (44_index_and_memory.md R154). -/
theorem State.byteAt_store_regsUpTo {s : State} (hm : s.memWf) {a : Nat} {x : Reg}
    (hfit : a + x.val < Config.memSize) {k : Reg} (hk : k ≤ x) :
    (s.store a (s.regsUpTo x)).byteAt (a + k.val) = s.getV k := by
  have hplace : (s.regsUpTo x)[k.val]? = some (s.getV k) := by
    rw [State.regsUpTo_getElem?, dif_pos (Fin.le_def.1 hk)]
  have hend : a + (s.regsUpTo x).length ≤ Config.memSize := by
    rw [State.regsUpTo_length]
    exact hfit
  exact State.byteAt_store_of_getElem? hm hend hplace

/-- `LD [I], Vx` when the whole range it writes exists. -/
theorem exec_ldMemVx_of_fits {x : Reg} {s : State} (hfit : s.i.toNat + x.val < Config.memSize) :
    exec (.ldMemVx x) s = .next { (s.store s.i.toNat (s.regsUpTo x)).advanceI x with result := .ok } := by
  rcases exec_ldMemVx_cases x s with ⟨-, e⟩ | ⟨hout, -⟩
  · exact e
  · exact absurd (.inr hfit) hout

/-- Settles O37: the fetch reads the bytes at `pc` and `pc + 1`, which are the first two places of the store. -/
theorem fetchSeesTheStoreBeforeIt : Obligations.FetchSeesTheStoreBeforeIt := by
  unfold Obligations.FetchSeesTheStoreBeforeIt
  intro x s hm hx hpc hend
  have hfit : s.i.toNat + x.val < Config.memSize := Nat.lt_succ_of_le hend
  have hnext : s.pc.toNat + 1 < Config.memSize := by
    rw [← hpc]
    omega
  have hV0 : (s.store s.i.toNat (s.regsUpTo x)).byteAt s.pc.toNat = s.getV 0 :=
    hpc ▸ State.byteAt_store_regsUpTo hm hfit (Fin.zero_le x)
  have hV1 : (s.store s.i.toNat (s.regsUpTo x)).byteAt (s.pc.toNat + 1) = s.getV 1 :=
    hpc ▸ State.byteAt_store_regsUpTo hm hfit (k := 1) hx
  refine ⟨_, _, exec_ldMemVx_of_fits hfit, State.fetch_of_pc_lt hnext, ?_⟩
  rw [opcodeOfBytes_toNat]
  exact congrArg₂ (fun hi lo : Byte => hi.toNat * 256 + lo.toNat) hV0 hV1

end Sys2Proof.Machine
end

section
/-! PROOFS. The decoder and the encoder are inverse to each other on the well-formed instructions and the accepted
words, and the words the decoder rejects are the five families of R76 (30_encoding.md R74, R75, R76). -/

namespace Sys2Proof

/-! ### A word from its fields, some of them known -/

theorem encodeA_of_fieldHi {op : Word} {h : BitVec 4} (hh : fieldHi op = h) : encodeA h (fieldNnn op) = op := by
  rw [← hh, encodeA_fields]

theorem encodeXK_of_fieldHi {op : Word} {h : BitVec 4} (hh : fieldHi op = h) :
    encodeXK h (fieldX op) (fieldKk op) = op := by
  rw [← hh, encodeXK_fields]

theorem encodeXK_of_fields {op : Word} {h : BitVec 4} {kk : Byte} (hh : fieldHi op = h) (hk : fieldKk op = kk) :
    encodeXK h (fieldX op) kk = op := by
  rw [← hh, ← hk, encodeXK_fields]

theorem encodeXYN_of_fields {op : Word} {h n : BitVec 4} (hh : fieldHi op = h) (hn : fieldN op = n) :
    encodeXYN h (fieldX op) (fieldY op) n = op := by
  rw [← hh, ← hn, encodeXYN_fields]

theorem encodeA_right_inj {h : BitVec 4} {a b : BitVec 12} : encodeA h a = encodeA h b ↔ a = b := by
  refine ⟨fun e => ?_, congrArg (encodeA h)⟩
  simpa using congrArg fieldNnn e

/-- `SYS nnn` is well-formed when its word is neither that of `CLS` nor that of `RET` (41_control_transfer.md R110). -/
theorem wf_sys_iff (nnn : BitVec 12) :
    (Instr.sys nnn).wf = true ↔ encodeA 0x0 nnn ≠ 0x00E0 ∧ encodeA 0x0 nnn ≠ 0x00EE := by
  have hcls : encodeA 0x0 nnn = 0x00E0 ↔ nnn = 0x0E0 := encodeA_right_inj (b := 0x0E0)
  have hret : encodeA 0x0 nnn = 0x00EE ↔ nnn = 0x0EE := encodeA_right_inj (b := 0x0EE)
  rw [Ne, Ne, hcls, hret]
  simp [Instr.wf]

/-! ### Decoding what was encoded -/

/-- The high nibble that `encode` writes selects the decoder's family, and the fields read there are the operands. -/
theorem decode_encode {i : Instr} (hwf : i.wf = true) : decode (encode i) = .ok i := by
  cases i with
  | sys nnn =>
    obtain ⟨hcls, hret⟩ := (wf_sys_iff nnn).1 hwf
    rw [encode, decode_hi0 _ (fieldHi_encodeA ..), if_neg hcls, if_neg hret, fieldNnn_encodeA]
  | cls | ret => rfl
  | jp | call | ldI | jpV0 => simp [encode, decode_hi1, decode_hi2, decode_hiA, decode_hiB]
  | seImm | sneImm | ldImm | addImm | rnd =>
    simp [encode, decode_hi3, decode_hi4, decode_hi6, decode_hi7, decode_hiC]
  | seReg | sneReg | drw => simp [encode, decode_hi5, decode_hi9, decode_hiD]
  | ldReg | orReg | andReg | xorReg | addReg | subReg | shrReg | subnReg | shlReg =>
    simp [encode, decode_hi8, decode8]
  | skp | sknp => simp [encode, decode_hiE, decodeE]
  | ldVxDt | ldVxK | ldDtVx | ldStVx | addI | ldF | ldB | ldMemVx | ldVxMem => simp [encode, decode_hiF, decodeF]

/-- The byte decoder on the bytes of a word that decodes (30_encoding.md R70). -/
theorem decodeBytes_encodeBytes {i : Instr} (hwf : i.wf = true) (rest : List Byte) :
    decodeBytes (encodeBytes i ++ rest) = .ok (i, rest) := by
  have hword : decodeBytes (encodeBytes i ++ rest) = (decode (encode i)).map fun i => (i, rest) :=
    decodeBytes_halves (encode i) rest
  rw [hword, decode_encode hwf]
  rfl

/-- Settles O4: family by family, the decoder reads back the fields the encoder wrote. -/
theorem decodeEncodeAllInstructions : Obligations.DecodeEncodeAllInstructions := by
  unfold Obligations.DecodeEncodeAllInstructions
  exact fun _ rest hwf => ⟨decode_encode hwf, decodeBytes_encodeBytes hwf rest⟩

/-! ### Encoding what was decoded -/

/-- One test of the decoder: what holds of its own answer when the test passes, and of every answer of the tests below
it, holds of every answer. -/
theorem forall_ok_of_ite {c : Prop} [Decidable c] {a : Instr} {r : Except DecodeError Instr} {P : Instr → Prop}
    (ha : c → P a) (hr : ∀ i, r = .ok i → P i) (i : Instr) (h : (if c then .ok a else r) = .ok i) : P i := by
  split_ifs at h with hc
  · cases h
    exact ha hc
  · exact hr i h

/-- In family 8 the low nibble of an accepted word is the selector the encoder writes. -/
theorem wf_and_encode_of_decode8 {op : Word} (q : fieldHi op = 0x8) :
    ∀ i, decode8 op = .ok i → i.wf = true ∧ encode i = op := by
  simp only [decode8]
  repeat refine forall_ok_of_ite (fun hn => ⟨rfl, encodeXYN_of_fields q hn⟩) ?_
  nofun

/-- In family E the low byte of an accepted word is the selector the encoder writes. -/
theorem wf_and_encode_of_decodeE {op : Word} (q : fieldHi op = 0xE) :
    ∀ i, decodeE op = .ok i → i.wf = true ∧ encode i = op := by
  simp only [decodeE]
  repeat refine forall_ok_of_ite (fun hk => ⟨rfl, encodeXK_of_fields q hk⟩) ?_
  nofun

/-- In family F the low byte of an accepted word is the selector the encoder writes. -/
theorem wf_and_encode_of_decodeF {op : Word} (q : fieldHi op = 0xF) :
    ∀ i, decodeF op = .ok i → i.wf = true ∧ encode i = op := by
  simp only [decodeF]
  repeat refine forall_ok_of_ite (fun hk => ⟨rfl, encodeXK_of_fields q hk⟩) ?_
  nofun

/-- In family 0 the words of `CLS` and `RET` are tested before `SYS` is answered (30_encoding.md R74). -/
theorem wf_and_encode_of_decode_hi0 {op : Word} {i : Instr} (q : fieldHi op = 0x0) (h : decode op = .ok i) :
    i.wf = true ∧ encode i = op := by
  have hword : encodeA 0x0 (fieldNnn op) = op := encodeA_of_fieldHi q
  rw [decode_hi0 op q] at h
  split_ifs at h with hcls hret <;> cases h
  · exact ⟨rfl, hcls.symm⟩
  · exact ⟨rfl, hret.symm⟩
  · exact ⟨(wf_sys_iff _).2 (hword.symm ▸ ⟨hcls, hret⟩), hword⟩

/-- Whatever the decoder answers is well-formed and encodes to the word decoded. -/
theorem wf_and_encode_of_decode {op : Word} {i : Instr} (h : decode op = .ok i) : i.wf = true ∧ encode i = op := by
  rcases hi_cases (fieldHi op) with q | q | q | q | q | q | q | q | q | q | q | q | q | q | q | q
  · exact wf_and_encode_of_decode_hi0 q h
  · rw [decode_hi1 op q] at h; cases h; exact ⟨rfl, encodeA_of_fieldHi q⟩
  · rw [decode_hi2 op q] at h; cases h; exact ⟨rfl, encodeA_of_fieldHi q⟩
  · rw [decode_hi3 op q] at h; cases h; exact ⟨rfl, encodeXK_of_fieldHi q⟩
  · rw [decode_hi4 op q] at h; cases h; exact ⟨rfl, encodeXK_of_fieldHi q⟩
  · rw [decode_hi5 op q] at h; split_ifs at h with hn; cases h; exact ⟨rfl, encodeXYN_of_fields q hn⟩
  · rw [decode_hi6 op q] at h; cases h; exact ⟨rfl, encodeXK_of_fieldHi q⟩
  · rw [decode_hi7 op q] at h; cases h; exact ⟨rfl, encodeXK_of_fieldHi q⟩
  · rw [decode_hi8 op q] at h; exact wf_and_encode_of_decode8 q i h
  · rw [decode_hi9 op q] at h; split_ifs at h with hn; cases h; exact ⟨rfl, encodeXYN_of_fields q hn⟩
  · rw [decode_hiA op q] at h; cases h; exact ⟨rfl, encodeA_of_fieldHi q⟩
  · rw [decode_hiB op q] at h; cases h; exact ⟨rfl, encodeA_of_fieldHi q⟩
  · rw [decode_hiC op q] at h; cases h; exact ⟨rfl, encodeXK_of_fieldHi q⟩
  · rw [decode_hiD op q] at h; cases h; exact ⟨rfl, encodeXYN_of_fields q rfl⟩
  · rw [decode_hiE op q] at h; exact wf_and_encode_of_decodeE q i h
  · rw [decode_hiF op q] at h; exact wf_and_encode_of_decodeF q i h

/-- Settles O5: in every family the fields of an accepted word, selector included, are what the encoder writes. -/
theorem encodeDecodeAllWords : Obligations.EncodeDecodeAllWords := by
  unfold Obligations.EncodeDecodeAllWords
  exact fun _ _ h => wf_and_encode_of_decode h

/-! ### The words the decoder rejects -/

/-- The seven low nibbles that select no operation of family 8 are those that are not among its nine selectors. -/
theorem not_selector8_iff (n : BitVec 4) :
    n ∉ [0x0#4, 0x1#4, 0x2#4, 0x3#4, 0x4#4, 0x5#4, 0x6#4, 0x7#4, 0xE#4] ↔
      n ∈ [0x8#4, 0x9#4, 0xA#4, 0xB#4, 0xC#4, 0xD#4, 0xF#4] := by
  revert n
  decide

theorem decode8_error_iff (op : Word) :
    (∃ e, decode8 op = .error e) ↔ fieldN op ∈ [0x8#4, 0x9#4, 0xA#4, 0xB#4, 0xC#4, 0xD#4, 0xF#4] := by
  rw [← not_selector8_iff]
  simp [decode8, ite_eq_iff]

theorem decodeE_error_iff (op : Word) : (∃ e, decodeE op = .error e) ↔ fieldKk op ∉ [0x9E#8, 0xA1#8] := by
  simp [decodeE, ite_eq_iff]

theorem decodeF_error_iff (op : Word) :
    (∃ e, decodeF op = .error e) ↔
      fieldKk op ∉ [0x07#8, 0x0A#8, 0x15#8, 0x18#8, 0x1E#8, 0x29#8, 0x33#8, 0x55#8, 0x65#8] := by
  simp [decodeF, ite_eq_iff]

/-- The five families of R76, by the fields of the word. -/
def IllegalFields (op : Word) : Prop :=
  (fieldHi op = 0x5 ∧ fieldN op ≠ 0) ∨
  (fieldHi op = 0x8 ∧ fieldN op ∈ [0x8#4, 0x9#4, 0xA#4, 0xB#4, 0xC#4, 0xD#4, 0xF#4]) ∨
  (fieldHi op = 0x9 ∧ fieldN op ≠ 0) ∨
  (fieldHi op = 0xE ∧ fieldKk op ∉ [0x9E#8, 0xA1#8]) ∨
  (fieldHi op = 0xF ∧ fieldKk op ∉ [0x07#8, 0x0A#8, 0x15#8, 0x18#8, 0x1E#8, 0x29#8, 0x33#8, 0x55#8, 0x65#8])

/-- Family by family: only families 5, 8, 9, E and F reject, each by its selector. -/
theorem decode_error_iff (op : Word) : (∃ e, decode op = .error e) ↔ IllegalFields op := by
  unfold IllegalFields
  rcases hi_cases (fieldHi op) with q | q | q | q | q | q | q | q | q | q | q | q | q | q | q | q
  · rw [decode_hi0 op q]; split_ifs <;> simp [q]
  · simp [decode_hi1 op q, q]
  · simp [decode_hi2 op q, q]
  · simp [decode_hi3 op q, q]
  · simp [decode_hi4 op q, q]
  · by_cases hn : fieldN op = 0x0#4 <;> simp [decode_hi5 op q, q, hn]
  · simp [decode_hi6 op q, q]
  · simp [decode_hi7 op q, q]
  · rw [decode_hi8 op q, decode8_error_iff]; simp [q]
  · by_cases hn : fieldN op = 0x0#4 <;> simp [decode_hi9 op q, q, hn]
  · simp [decode_hiA op q, q]
  · simp [decode_hiB op q, q]
  · simp [decode_hiC op q, q]
  · simp [decode_hiD op q, q]
  · rw [decode_hiE op q, decodeE_error_iff]; simp [q]
  · rw [decode_hiF op q, decodeF_error_iff]; simp [q]

/-- Settles O6: the rejected words by their fields, and the fields as numbers. -/
theorem decodeRejectsExactlyIllegalWords : Obligations.DecodeRejectsExactlyIllegalWords := by
  unfold Obligations.DecodeRejectsExactlyIllegalWords
  intro op
  refine ⟨(decode_error_iff op).trans ?_, fun _ => decode_error⟩
  simp [IllegalFields, ← BitVec.toNat_inj, fieldHi_toNat, fieldN_toNat, fieldKk_toNat]

/-- Settles O3, by running the decoder on each word. -/
theorem decodeSampleWords : Obligations.DecodeSampleWords := by
  unfold Obligations.DecodeSampleWords
  decide

end Sys2Proof
end

section
/-! PROOFS. The Step and the free step: the fetch, the instruction a step runs, the free step as a queue of
transactions, and the timers a Step leaves alone (40_step_cycle.md R91, R95, R96, R97). -/

namespace Sys2Proof.Machine

/-! ### The fetch (R91) -/

/-- A Step whose fetch fails returns the error with only the inputs sampled. -/
theorem stepTransaction_of_le_pc {s : State} (h : Config.memSize ≤ s.pc.toNat + 1) (k : BitVec 16) (b : Byte) :
    stepTransaction k b s = .next ((s.sample k b).raise .memoryOutOfBounds) := by
  rcases stepTransaction_cases k b s with ⟨-, e⟩ | ⟨op, -, hf, -⟩ | ⟨op, -, hf, -⟩
  · exact e
  all_goals exact absurd (State.pc_lt_of_fetch hf) (Nat.not_lt.2 h)

/-- The fetch reads `pc` and the two bytes there, nothing else. -/
theorem State.fetch_congr_bytes {s u : State} (hpc : u.pc = s.pc) (hhi : u.byteAt s.pc.toNat = s.byteAt s.pc.toNat)
    (hlo : u.byteAt (s.pc.toNat + 1) = s.byteAt (s.pc.toNat + 1)) : u.fetch = s.fetch := by
  unfold State.fetch
  rw [hpc, hhi, hlo]

/-- Settles O11: a failed fetch raises in the state with the inputs sampled; one that succeeds reads two bytes. -/
theorem fetchReadsTwoBytesOrRaises : Obligations.FetchReadsTwoBytesOrRaises := by
  unfold Obligations.FetchReadsTwoBytesOrRaises
  intro s keys rnd rest hp
  refine ⟨fun hge => ?_, fun hlt => ?_⟩
  · obtain ⟨hframe, hret, -⟩ := raised_raise (State.sample { s with pending := rest } keys rnd) .memoryOutOfBounds
    have hstep := stepTransaction_of_le_pc (s := { s with pending := rest }) hge keys rnd
    exact ⟨_, (step_of_pending hp).trans hstep, hframe, hret, rfl⟩
  · have hf := State.fetch_of_pc_lt hlt
    exact ⟨_, hf, opcodeOfBytes_toNat _ _, fun u hpc hhi hlo => (State.fetch_congr_bytes hpc hhi hlo).trans hf⟩

/-! ### The instruction a step runs (R96) -/

theorem decode_of_decodeBytes {hi lo : Byte} {i : Instr} {rest : List Byte} (h : decodeBytes [hi, lo] = .ok (i, rest)) :
    decode (opcodeOfBytes hi lo) = .ok i := by
  cases hd : decode (opcodeOfBytes hi lo) with
  | error e => simp only [decodeBytes, hd] at h; cases h
  | ok j => simp only [decodeBytes, hd] at h; cases h; rfl

/-- The instruction of a Step, by the two bytes at `pc`. -/
theorem stepTransaction_of_decodeBytes {s : State} {i : Instr} (hpc : s.pc.toNat + 1 < Config.memSize)
    (hd : decodeBytes [s.byteAt s.pc.toNat, s.byteAt (s.pc.toNat + 1)] = .ok (i, [])) (k : BitVec 16) (b : Byte) :
    stepTransaction k b s = exec i (s.sample k b).advance :=
  stepTransaction_of_decode (State.fetch_of_pc_lt hpc) (decode_of_decodeBytes hd)

/-- Settles O7: the queued Step starts from the state with the transaction taken off the queue. -/
theorem stepRunsDecodedInstruction : Obligations.StepRunsDecodedInstruction := by
  unfold Obligations.StepRunsDecodedInstruction
  intro s keys rnd rest i hp hpc hd
  rw [step_of_pending hp]
  exact stepTransaction_of_decodeBytes (s := { s with pending := rest }) hpc hd keys rnd

/-- Settles O8: the Ticks of the free step change neither `pc` nor memory, so its Step runs the word at `pc`. -/
theorem freeStepRunsDecodedInstruction : Obligations.FreeStepRunsDecodedInstruction := by
  unfold Obligations.FreeStepRunsDecodedInstruction
  intro s i hp hpc hd
  rw [step_of_empty hp, ← tickMany_eq_iterate]
  exact stepTransaction_of_decodeBytes
    (s := State.tickMany { s with draws := s.draws + 1 } (Config.freeTicks s.draws)) hpc hd _ _

/-! ### The free step as a queue of transactions (R95) -/

/-- A run over queued Ticks and then one more transaction is the step that takes that transaction after the Ticks. -/
theorem run_replicate_tick (rest : List Transaction) (n : Nat) : ∀ s : State,
    Host.Core.run Sys2Proof.core (n + 1) { s with pending := List.replicate n .tick ++ rest } =
      step { State.tick^[n] s with pending := rest } := by
  induction n with
  | zero => exact fun s => run_one _
  | succ n ih =>
    intro s
    have htick : step { s with pending := List.replicate (n + 1) .tick ++ rest } =
        .next { s.tick with pending := List.replicate n .tick ++ rest } := 
      step_of_pending (t := .tick) (rest := List.replicate n .tick ++ rest) rfl
    rw [run_succ_of_next htick, ih, Function.iterate_succ_apply]

/-- Settles O9: after the queued Ticks the queued Step runs from the very state the free one does. -/
theorem freeStepIsAScheduledRun : Obligations.FreeStepIsAScheduledRun := by
  unfold Obligations.FreeStepIsAScheduledRun
  intro s hp
  have hrun := run_replicate_tick [.step (Config.freeKeys s.draws) (Config.freeRnd s.draws)] (Config.freeTicks s.draws)
    { s with draws := s.draws + 1 }
  have hqueue : { State.tickMany { s with draws := s.draws + 1 } (Config.freeTicks s.draws) with pending := [] } =
      State.tickMany { s with draws := s.draws + 1 } (Config.freeTicks s.draws) := by
    simp only [State.tickMany, hp]
  rw [step_of_empty hp, hrun, step_of_pending rfl, ← tickMany_eq_iterate]
  exact (congrArg (stepTransaction _ _) hqueue).symm

/-! ### The timers (R97) -/

/-- No instruction is a writer of `BEEP`. -/
theorem beep_not_mem_parts (i : Instr) : Part.beep ∉ Instr.parts i := by
  cases i <;> simp [Instr.parts]

/-- `LD DT, Vx` is the only writer of `DT`. -/
theorem delay_mem_parts {i : Instr} : Part.delay ∈ Instr.parts i ↔ ∃ x, i = .ldDtVx x := by
  cases i <;> simp [Instr.parts]

/-- `LD ST, Vx` is the only writer of `ST`. -/
theorem sound_mem_parts {i : Instr} : Part.sound ∈ Instr.parts i ↔ ∃ x, i = .ldStVx x := by
  cases i <;> simp [Instr.parts]

/-- A piece an instruction is no writer of is unchanged. -/
theorem exec_unchanged {i : Instr} {s t : State} (h : exec i s = .next t) {p : Part} (hp : p ∉ Instr.parts i) :
    Unchanged p s t := by
  obtain ⟨⟨-, hframe⟩, -⟩ := exec_frame h
  exact hframe p hp

theorem exec_beep {i : Instr} {s t : State} (h : exec i s = .next t) : t.beep = s.beep :=
  exec_unchanged h (beep_not_mem_parts i)

theorem exec_dt {i : Instr} {s t : State} (h : exec i s = .next t) :
    t.dt = s.dt ∨ ∃ x, i = .ldDtVx x ∧ t.dt = s.getV x := by
  by_cases hi : Part.delay ∈ Instr.parts i
  · obtain ⟨x, rfl⟩ := delay_mem_parts.1 hi
    obtain rfl := Host.Outcome.next.inj h
    exact .inr ⟨x, rfl, rfl⟩
  · exact .inl (exec_unchanged h hi)

theorem exec_st {i : Instr} {s t : State} (h : exec i s = .next t) :
    t.st = s.st ∨ ∃ x, i = .ldStVx x ∧ t.st = s.getV x := by
  by_cases hi : Part.sound ∈ Instr.parts i
  · obtain ⟨x, rfl⟩ := sound_mem_parts.1 hi
    obtain rfl := Host.Outcome.next.inj h
    exact .inr ⟨x, rfl, rfl⟩
  · exact .inl (exec_unchanged h hi)

/-- Settles O50: a Step that raises before it executes leaves all three, and an instruction writes `DT` or `ST` only as
the one writer of it. -/
theorem stepsLeaveTheTimersAlone : Obligations.StepsLeaveTheTimersAlone := by
  unfold Obligations.StepsLeaveTheTimersAlone
  intro s t keys rnd rest hp h
  rw [step_of_pending hp] at h
  rcases stepTransaction_cases keys rnd { s with pending := rest } with
    ⟨-, e⟩ | ⟨op, er, -, -, e⟩ | ⟨op, i, hf, hd, e⟩
  · obtain rfl := Host.Outcome.next.inj (h.symm.trans e)
    exact ⟨rfl, .inl rfl, .inl rfl⟩
  · obtain rfl := Host.Outcome.next.inj (h.symm.trans e)
    exact ⟨rfl, .inl rfl, .inl rfl⟩
  · have hexec := e.symm.trans h
    have hdt := exec_dt hexec
    have hst := exec_st hexec
    have hbeep := exec_beep hexec
    refine ⟨hbeep, hdt.imp_right ?_, hst.imp_right ?_⟩
    all_goals
      rintro ⟨x, rfl, hv⟩
      exact ⟨op, x, hf, hd, hv⟩

end Sys2Proof.Machine
end

section
/-! PROOFS. Control transfer: one law each for a `CALL` that pushes, a `CALL` on a full stack and a `RET` that pops, the
nesting law from these three, and the two jumps and `SYS` (41_control_transfer.md). -/

namespace Sys2Proof

/-- The encoding of an instruction is the only word that decodes to it (30_encoding.md R74, R75). -/
theorem decode_eq_ok_iff {i : Instr} (hwf : i.wf = true) (op : Word) :
    decode op = .ok i ↔ op.toNat = (encode i).toNat := by
  rw [BitVec.toNat_inj]
  constructor
  · intro h
    exact (wf_and_encode_of_decode h).2.symm
  · rintro rfl
    exact decode_encode hwf

end Sys2Proof

namespace Sys2Proof.Machine

/-! ### One CALL, one RET -/

/-- `CALL` with a free slot (41_control_transfer.md R113). -/
theorem exec_call_next (nnn : BitVec 12) {s : State} (hsp : s.sp.val < Config.stackDepth) :
    ∃ t, exec (.call nnn) s = .next t ∧ t.sp.val = s.sp.val + 1 ∧ t.pc.toNat = nnn.toNat ∧
      (∀ k : Fin Config.stackDepth, t.stack[k] = if k.val = s.sp.val then s.pc else s.stack[k]) ∧
      Did [.pc, .stack] s t := by
  rcases exec_call_cases nnn s with ⟨_, e⟩ | ⟨hfull, -⟩
  · refine ⟨_, e, rfl, zextAddr_toNat nnn, fun k => ?_, (completes_stack s _ _ _).did⟩
    simp only [Fin.getElem_fin, Vector.getElem_set, eq_comm]
  · exact absurd hfull (Nat.ne_of_lt hsp)

/-- `CALL` on a full stack (60_exceptions.md R183). -/
theorem exec_call_raised (nnn : BitVec 12) {s : State} (hsp : s.sp.val = Config.stackDepth) :
    ∃ t, exec (.call nnn) s = .next t ∧ Raised .stackOverflow s t := by
  rcases exec_call_cases nnn s with ⟨hfree, -⟩ | ⟨-, e⟩
  · exact absurd hsp (Nat.ne_of_lt hfree)
  · exact ⟨_, e, raised_raise s .stackOverflow⟩

/-- `RET` with a return address on the stack (41_control_transfer.md R111). -/
theorem exec_ret_next {s : State} (hsp : 0 < s.sp.val) :
    ∃ t, exec .ret s = .next t ∧ t.sp.val = s.sp.val - 1 ∧ t.stack = s.stack ∧
      (∀ k : Fin Config.stackDepth, k.val = s.sp.val - 1 → t.pc = s.stack[k]) ∧ Did [.pc, .stack] s t := by
  rcases exec_ret_cases s with ⟨hempty, -⟩ | ⟨_, -, e⟩
  · exact absurd hempty (Nat.ne_of_gt hsp)
  · refine ⟨_, e, rfl, rfl, fun k hk => ?_, (completes_stack s _ _ _).did⟩
    simp only [Fin.getElem_fin, hk]

/-! ### Nested CALLs (70_reset_and_hazards.md R223, 95_test_vectors.md S6) -/

theorem execAll_cons {i : Instr} {s t : State} (h : exec i s = .next t) (is : List Instr) :
    execAll (i :: is) s = execAll is t := by
  simp only [execAll, h]

theorem execAll_append (is js : List Instr) :
    ∀ {s t : State}, execAll is s = .next t → execAll (is ++ js) s = execAll js t := by
  induction is with
  | nil =>
    intro s t h
    obtain rfl := Host.Outcome.next.inj h
    rfl
  | cons i is ih =>
    intro s t h
    obtain ⟨u, hu, -⟩ := exec_cases i s
    rw [execAll_cons hu] at h
    rw [List.cons_append, execAll_cons hu, ih h]

/-- `u` is `s` again after subroutines that returned: only slots at or above `SP`, which are dead (10_state.md R28),
may differ. -/
structure ReturnedTo (s u : State) : Prop where
  pc_eq : u.pc = s.pc
  sp_eq : u.sp = s.sp
  live_slot : ∀ k : Fin Config.stackDepth, k.val < s.sp.val → u.stack[k] = s.stack[k]
  frame : Frame [.pc, .stack] s u
  firstError_eq : u.firstError = s.firstError

theorem ReturnedTo.refl (s : State) : ReturnedTo s s :=
  ⟨rfl, rfl, fun _ _ => rfl, Frame.refl _ s, rfl⟩

/-- The `RET` of a subroutine undoes its `CALL`, whatever returning subroutines ran in between. -/
theorem exec_ret_of_call {nnn : BitVec 12} {s t u : State} (hsp : s.sp.val < Config.stackDepth)
    (hcall : exec (.call nnn) s = .next t) (hu : ReturnedTo t u) : ∃ v, exec .ret u = .next v ∧ ReturnedTo s v := by
  obtain ⟨t', ht', hsp', -, hslots, hframe, ⟨-, herr⟩, -⟩ := exec_call_next nnn hsp
  obtain rfl : t = t' := Host.Outcome.next.inj (hcall.symm.trans ht')
  have hsu : u.sp.val = s.sp.val + 1 := (congrArg Fin.val hu.sp_eq).trans hsp'
  obtain ⟨v, hv, hspv, hstack, hpc, hframe', ⟨-, herr'⟩, -⟩ := exec_ret_next (s := u) (by omega)
  refine ⟨v, hv, ⟨?_, Fin.ext (by omega), fun k hk => ?_, (hframe.trans hu.frame).trans hframe',
    herr'.trans (hu.firstError_eq.trans herr)⟩⟩
  · rw [hpc ⟨s.sp.val, hsp⟩ (by simp only; omega), hu.live_slot _ (by simp only; omega), hslots, if_pos rfl]
  · rw [hstack, hu.live_slot k (by omega), hslots, if_neg (Nat.ne_of_lt hk)]

/-- The nesting law: each `CALL` has its `RET`, the first `CALL` the last `RET`. -/
theorem execAll_calls_rets (targets : List (BitVec 12)) :
    ∀ s : State, s.sp.val + targets.length ≤ Config.stackDepth →
      ∃ t u, execAll (targets.map .call) s = .next t ∧ t.sp.val = s.sp.val + targets.length ∧
        Frame [.pc, .stack] s t ∧ execAll (List.replicate targets.length .ret) t = .next u ∧ ReturnedTo s u := by
  induction targets with
  | nil => exact fun s _ => ⟨s, s, rfl, rfl, Frame.refl _ s, rfl, ReturnedTo.refl s⟩
  | cons nnn targets ih =>
    intro s hfit
    rw [List.length_cons] at hfit
    have hsp : s.sp.val < Config.stackDepth := by omega
    obtain ⟨s', hcall, hsp', -, -, hframe, -⟩ := exec_call_next nnn hsp
    obtain ⟨t, u, hcalls, hspt, hframe', hrets, hu⟩ := ih s' (by omega)
    obtain ⟨v, hret, hv⟩ := exec_ret_of_call hsp hcall hu
    refine ⟨t, v, (execAll_cons hcall _).trans hcalls, ?_, hframe.trans hframe', ?_, hv⟩
    · rw [List.length_cons]
      omega
    · rw [List.length_cons, List.replicate_succ', execAll_append _ _ hrets]
      exact execAll_cons hret []

/-- Settles O21: the nesting law, and at depth 16 the `CALL` that finds the stack full. -/
theorem nestedCallsReturnInOrder : Obligations.NestedCallsReturnInOrder := by
  unfold Obligations.NestedCallsReturnInOrder
  intro targets s hfit
  obtain ⟨t, u, hcalls, hsp, hframe, hrets, hu⟩ := execAll_calls_rets targets s hfit
  exact ⟨t, u, hcalls, hsp, hrets, hu.pc_eq, hu.sp_eq, hu.live_slot, hframe, hu.frame, hu.firstError_eq,
    fun hfull nnn => exec_call_raised nnn (hsp.trans hfull)⟩

/-- Settles O20: a free slot or a full stack. -/
theorem callPushesTheReturnAddressOrRaises : Obligations.CallPushesTheReturnAddressOrRaises := by
  unfold Obligations.CallPushesTheReturnAddressOrRaises
  exact fun nnn _ => ⟨exec_call_next nnn, exec_call_raised nnn⟩

/-- Settles O17: the law of a `RET` that pops. -/
theorem retPopsTheReturnAddress : Obligations.RetPopsTheReturnAddress := by
  unfold Obligations.RetPopsTheReturnAddress
  exact fun _ => exec_ret_next

/-! ### SYS -/

/-- Settles O16: `SYS` is nothing but raising the error with its own word. -/
theorem sysRaisesUnknownOpcode : Obligations.SysRaisesUnknownOpcode := by
  unfold Obligations.SysRaisesUnknownOpcode
  exact fun nnn s => ⟨_, sysWord nnn, rfl, sysWord_toNat nnn, raised_raise s _⟩

/-! ### The jumps -/

/-- The last address a word can be fetched from is 4094 (40_step_cycle.md R91). -/
theorem State.fetch_of_pc_gt {s : State} (h : 4094 < s.pc.toNat) : s.fetch = .error .memoryOutOfBounds := by
  rcases s.fetch_cases with ⟨-, e⟩ | ⟨hlt, -⟩
  · exact e
  · have : s.pc.toNat + 1 < 4096 := hlt
    omega

/-- What both jumps do, by the target. -/
theorem exec_jump_next {i : Instr} {s : State} {a : Word} (h : exec i s = (s.jump a).succeed) :
    ∃ t, exec i s = .next t ∧ t.pc = a ∧ Did [.pc] s t :=
  ⟨_, h, rfl, (completes_jump s a).did⟩

/-- Settles O22: the sum does not wrap, so it is `pc`, and above 4094 no word can be fetched. -/
theorem jpV0AddsTheOffsetUnmasked : Obligations.JpV0AddsTheOffsetUnmasked := by
  unfold Obligations.JpV0AddsTheOffsetUnmasked
  intro nnn s
  obtain ⟨t, ht, hpc, hdid⟩ := exec_jump_next (i := .jpV0 nnn) (s := s) rfl
  have hsum : t.pc.toNat = nnn.toNat + (s.getV V0).toNat := by
    rw [hpc, zextAddr_add_zextByte_toNat]
  exact ⟨t, ht, hsum, hdid, fun h => State.fetch_of_pc_gt (hsum ▸ h)⟩

/-- A queued Step changes only `pc` of the block before it executes (40_step_cycle.md R90, R92). -/
theorem frame_sample_advance (s : State) (rest : List Transaction) (keys : BitVec 16) (rnd : Byte) :
    Frame [.pc] s (State.sample { s with pending := rest } keys rnd).advance := by
  refine ⟨rfl, fun p hp => ?_⟩
  cases p <;> simp_all [Unchanged, State.getV, State.byteAt]

/-- `pc` among the pieces that may change, but back where it was. -/
theorem Frame.of_pc_eq {s t : State} (h : Frame [.pc] s t) (hpc : t.pc = s.pc) : Frame [] s t := by
  obtain ⟨hparams, hframe⟩ := h
  refine ⟨hparams, fun p _ => ?_⟩
  by_cases hp : p = .pc
  · subst hp
    exact hpc
  · exact hframe p (by simpa using hp)

/-- `JP nnn` (41_control_transfer.md R112). -/
theorem exec_jp_next (nnn : BitVec 12) (s : State) :
    ∃ t, exec (.jp nnn) s = .next t ∧ t.pc.toNat = nnn.toNat ∧ Did [.pc] s t := by
  obtain ⟨t, ht, hpc, hdid⟩ := exec_jump_next (i := .jp nnn) (s := s) rfl
  exact ⟨t, ht, hpc ▸ zextAddr_toNat nnn, hdid⟩

/-- The idle loop: the advance and the jump of a self-jump cancel (41_control_transfer.md R112). -/
theorem step_selfJump {nnn : BitVec 12} {s : State} {keys : BitVec 16} {rnd : Byte} {rest : List Transaction}
    {op : Word} (hp : s.pending = .step keys rnd :: rest) (hf : s.fetch = .ok op) (hd : decode op = .ok (.jp nnn))
    (hself : s.pc.toNat = nnn.toNat) : ∃ t, step s = .next t ∧ Frame [] s t ∧ Returned .ok s t := by
  have hstep : step s = exec (.jp nnn) (State.sample { s with pending := rest } keys rnd).advance :=
    (step_of_pending hp).trans (stepTransaction_of_decode (s := { s with pending := rest }) hf hd)
  obtain ⟨t, ht, hpc, hframe, hret, -⟩ :=
    exec_jp_next nnn (State.sample { s with pending := rest } keys rnd).advance
  have hback : t.pc = s.pc := BitVec.eq_of_toNat_eq (hpc.trans hself.symm)
  exact ⟨t, hstep.trans ht, ((frame_sample_advance s rest keys rnd).trans hframe).of_pc_eq hback, hret⟩

/-- Settles O19: `pc` is the target, at 0xFFF past the last fetchable address; the idle loop; and the encoding. -/
theorem jpLoadsItsTarget : Obligations.JpLoadsItsTarget := by
  unfold Obligations.JpLoadsItsTarget
  refine ⟨fun nnn s => ?_, fun _ _ _ _ _ _ => step_selfJump, fun nnn op => ?_⟩
  · obtain ⟨t, ht, hpc, hdid⟩ := exec_jp_next nnn s
    exact ⟨t, ht, hpc, hdid, fun h => State.fetch_of_pc_gt (by omega)⟩
  · rw [decode_eq_ok_iff (i := .jp nnn) rfl, encode, encodeA_toNat]
    rfl

end Sys2Proof.Machine
end

section
/-! PROOFS. The skips: one law for the six of them, by the condition each tests, and the words that decode to the four
register skips (42_skips.md R120 to R126). -/

namespace Sys2Proof

/-! ### The words of a format (R72) -/

theorem decode_eq_ok_iff_of_encodeXK {i : Instr} {h : BitVec 4} {x : Reg} {kk : Byte} (hwf : i.wf = true)
    (henc : encode i = encodeXK h x kk) (op : Word) :
    decode op = .ok i ↔ op.toNat = h.toNat * 4096 + x.val * 256 + kk.toNat := by
  rw [decode_eq_ok_iff hwf, henc, encodeXK_toNat]

theorem decode_eq_ok_iff_of_encodeXYN {i : Instr} {h n : BitVec 4} {x y : Reg} (hwf : i.wf = true)
    (henc : encode i = encodeXYN h x y n) (op : Word) :
    decode op = .ok i ↔ op.toNat = h.toNat * 4096 + x.val * 256 + y.val * 16 + n.toNat := by
  rw [decode_eq_ok_iff hwf, henc, encodeXYN_toNat]

/-- Families 5 and 9 have no operation but the one of low nibble 0 (30_encoding.md R76). -/
theorem decode_error_of_registerSkip_nibble {op : Word} (hhi : op.toNat / 4096 = 0x5 ∨ op.toNat / 4096 = 0x9)
    (hn : op.toNat % 16 ≠ 0) : decode op = .error (.unknownOpcode op) := by
  have hrejected : ∃ e, decode op = .error e := by
    refine (decodeRejectsExactlyIllegalWords op).1.2 ?_
    rcases hhi with h5 | h9
    · exact .inl ⟨h5, hn⟩
    · exact .inr (.inr (.inl ⟨h9, hn⟩))
  obtain ⟨e, he⟩ := hrejected
  rwa [decode_error he] at he

end Sys2Proof

namespace Sys2Proof.Machine

/-! ### The six skips -/

/-- The common rule (42_skips.md R126): what a skip does, by the condition `P` that its test decides. -/
theorem exec_skip_next {i : Instr} {s : State} {c : Bool} {P : Prop} [Decidable P]
    (h : exec i s = (s.skipIf c).succeed) (hc : c = true ↔ P) :
    ∃ t, exec i s = .next t ∧ t.pc = (if P then s.pc + 2 else s.pc) ∧ Did [.pc] s t := by
  refine ⟨_, h, ?_, (completes_skipIf s c).did⟩
  calc (s.skipIf c).pc = if c = true then s.pc + 2 else s.pc := s.skipIf_pc c
    _ = if P then s.pc + 2 else s.pc := if_congr hc rfl rfl

/-- Settles O23: each test decides its comparison, each encoding is its format's, and the rest of families 5 and 9 is
rejected. -/
theorem registerSkipsAdvancePcOnTheirCondition : Obligations.RegisterSkipsAdvancePcOnTheirCondition := by
  unfold Obligations.RegisterSkipsAdvancePcOnTheirCondition
  intro x y kk s
  exact ⟨exec_skip_next (i := .seImm x kk) rfl beq_iff_eq,
    exec_skip_next (i := .sneImm x kk) rfl bne_iff_ne,
    exec_skip_next (i := .seReg x y) rfl beq_iff_eq,
    exec_skip_next (i := .sneReg x y) rfl bne_iff_ne,
    decode_eq_ok_iff_of_encodeXK (h := 0x3) rfl rfl,
    decode_eq_ok_iff_of_encodeXK (h := 0x4) rfl rfl,
    decode_eq_ok_iff_of_encodeXYN (h := 0x5) (n := 0) rfl rfl,
    decode_eq_ok_iff_of_encodeXYN (h := 0x9) (n := 0) rfl rfl,
    fun _ => decode_error_of_registerSkip_nibble⟩

/-- Settles O24: the test reads the bit of the sampled keys that the low nibble numbers. -/
theorem keySkipsTestTheSampledKey : Obligations.KeySkipsTestTheSampledKey := by
  unfold Obligations.KeySkipsTestTheSampledKey
  intro x s
  exact ⟨exec_skip_next (i := .skp x) rfl Iff.rfl,
    exec_skip_next (i := .sknp x) rfl (iff_of_eq (Bool.not_eq_true' _))⟩

end Sys2Proof.Machine
end

section
/-! PROOFS. The register loads and the ALU: one law for the instructions that write a register, one for the five that
write a register and then `VF`, and what `chip8_alu` computes, as numbers (43_load_and_alu.md R130 to R143). -/

namespace Sys2Proof

/-- The words of family 8, by the low nibble that selects the operation (30_encoding.md R72, R75). -/
theorem decode_eq_ok_iff_of_family8 {i : Instr} {x y : Reg} {n : BitVec 4} (hwf : i.wf = true)
    (henc : encode i = encodeXYN 0x8 x y n) (op : Word) :
    decode op = .ok i ↔ op.toNat = 0x8000 + n.toNat + x.val * 256 + y.val * 16 := by
  have hfamily : (0x8 : BitVec 4).toNat * 4096 = 0x8000 := rfl
  rw [decode_eq_ok_iff_of_encodeXYN hwf henc, hfamily]
  omega

end Sys2Proof

namespace Sys2Proof.Machine

/-! ### What `chip8_alu` computes -/

theorem aluAdd_fst_toNat (a b : Byte) : (aluAdd a b).1.toNat = (a.toNat + b.toNat) % 256 :=
  BitVec.toNat_add a b

theorem aluAdd_flag_toNat (a b : Byte) :
    (flagByte (aluAdd a b).2).toNat = if 255 < a.toNat + b.toNat then 1 else 0 := by
  simp only [aluAdd, flagByte_toNat, decide_eq_true_eq]

theorem aluSub_fst_toNat (a b : Byte) : (aluSub a b).1.toNat = (a.toNat + 256 - b.toNat) % 256 := by
  have hb : b.toNat < 256 := b.isLt
  rw [aluSub, BitVec.toNat_sub]
  omega

theorem aluSub_flag_toNat (a b : Byte) :
    (flagByte (aluSub a b).2).toNat = if b.toNat ≤ a.toNat then 1 else 0 := by
  simp only [aluSub, flagByte_toNat, decide_eq_true_eq]

/-- A bit of a byte, as the flag that a shift makes of it. -/
theorem flagByte_getLsbD_toNat (b : Byte) (k : Nat) : (flagByte (b.getLsbD k)).toNat = b.toNat / 2 ^ k % 2 := by
  rw [← Nat.toNat_testBit, BitVec.testBit_toNat, flagByte_toNat]
  cases b.getLsbD k <;> rfl

theorem aluShr_fst_toNat (b : Byte) : (aluShr b).1.toNat = b.toNat / 2 := by
  rw [aluShr, BitVec.toNat_ushiftRight, Nat.shiftRight_eq_div_pow, Nat.pow_one]

theorem aluShr_flag_toNat (b : Byte) : (flagByte (aluShr b).2).toNat = b.toNat % 2 := by
  rw [aluShr, flagByte_getLsbD_toNat, Nat.pow_zero, Nat.div_one]

theorem aluShl_fst_toNat (b : Byte) : (aluShl b).1.toNat = 2 * b.toNat % 256 := by
  rw [aluShl, BitVec.toNat_shiftLeft, Nat.shiftLeft_eq, Nat.pow_one, Nat.mul_comm]

/-- Bit 7 is the top bit, so no further remainder is left. -/
theorem aluShl_flag_toNat (b : Byte) : (flagByte (aluShl b).2).toNat = b.toNat / 128 := by
  have hb : b.toNat < 256 := b.isLt
  rw [aluShl, flagByte_getLsbD_toNat]
  omega

/-! ### The two ways a result is written -/

/-- What an instruction does that ends with the byte `b` in `V[x]`. -/
theorem exec_setV_next {i : Instr} {s : State} {x : Reg} {b : Byte} (h : exec i s = (s.setV x b).succeed) :
    ∃ t, exec i s = .next t ∧ t.getV x = b ∧ (∀ r, r ≠ x → t.getV r = s.getV r) ∧ Did [.regs] s t :=
  ⟨_, h, s.getV_setV_same x b, fun _ hr => s.getV_setV_other hr b, (completes_setV s x b).did⟩

/-- The same, for a result that is given bit by bit. -/
theorem exec_setV_bits {i : Instr} {s : State} {x : Reg} {b : Byte} {bits : Nat → Bool}
    (h : exec i s = (s.setV x b).succeed) (hbits : ∀ k, b.getLsbD k = bits k) :
    ∃ t, exec i s = .next t ∧ (∀ k, (t.getV x).getLsbD k = bits k) ∧ (∀ r, r ≠ x → t.getV r = s.getV r) ∧
      Did [.regs] s t := by
  obtain ⟨t, ht, rfl, hframe⟩ := exec_setV_next h
  exact ⟨t, ht, hbits, hframe⟩

/-- What an instruction does that writes the result of `r` to `V[x]` and then its flag to `VF`, by their numbers
(43_load_and_alu.md R130). -/
theorem exec_setVFlag_next {i : Instr} {s : State} {x : Reg} {r : Byte × Bool} {value flag : Nat}
    (h : exec i s = (s.setVFlag x r).succeed) (hvalue : r.1.toNat = value) (hflag : (flagByte r.2).toNat = flag) :
    ∃ t, exec i s = .next t ∧ (x ≠ VF → (t.getV x).toNat = value) ∧ (t.getV VF).toNat = flag ∧
      (∀ r', r' ≠ x → r' ≠ VF → t.getV r' = s.getV r') ∧ Did [.regs] s t := by
  refine ⟨_, h, fun hx => ?_, ?_, fun r' hrx hrVF => ?_, (completes_setVFlag s x r).did⟩
  · have hresult : (s.setVFlag x r).getV x = r.1 := by rw [State.getV_setVFlag, if_neg hx, if_pos rfl]
    exact (congrArg BitVec.toNat hresult).trans hvalue
  · exact (congrArg BitVec.toNat (s.getV_setVFlag_VF x r)).trans hflag
  · exact s.getV_setVFlag_other (not_or.2 ⟨hrx, hrVF⟩) r

/-! ### The obligations -/

/-- Settles O25: each load is one register write, and each encoding is its format's. -/
theorem loadsCopyIntoTheirRegister : Obligations.LoadsCopyIntoTheirRegister := by
  unfold Obligations.LoadsCopyIntoTheirRegister
  intro x y kk s
  exact ⟨exec_setV_next (i := .ldImm x kk) rfl, exec_setV_next (i := .ldReg x y) rfl,
    decode_eq_ok_iff_of_encodeXK (h := 0x6) rfl rfl,
    decode_eq_ok_iff_of_family8 (n := 0x0) rfl rfl⟩

/-- Settles O26: one register write, of a sum of bytes. -/
theorem addImmediateWrapsWithoutFlag : Obligations.AddImmediateWrapsWithoutFlag := by
  unfold Obligations.AddImmediateWrapsWithoutFlag
  intro x kk s
  obtain ⟨t, ht, hx, hframe⟩ := exec_setV_next (i := .addImm x kk) (s := s) rfl
  exact ⟨t, ht, hx ▸ BitVec.toNat_add (s.getV x) kk, hframe⟩

/-- Settles O27: one register write each, of a bitwise result. -/
theorem logicIsBitwiseWithoutFlag : Obligations.LogicIsBitwiseWithoutFlag := by
  unfold Obligations.LogicIsBitwiseWithoutFlag
  intro x y s
  exact ⟨exec_setV_bits (i := .orReg x y) rfl fun _ => BitVec.getLsbD_or,
    exec_setV_bits (i := .andReg x y) rfl fun _ => BitVec.getLsbD_and,
    exec_setV_bits (i := .xorReg x y) rfl fun _ => BitVec.getLsbD_xor⟩

/-- Settles O28: the flagged write of the sum and its carry, and the encoding of its format. -/
theorem addWritesSumThenCarry : Obligations.AddWritesSumThenCarry := by
  unfold Obligations.AddWritesSumThenCarry
  intro x y s
  exact ⟨exec_setVFlag_next (i := .addReg x y) rfl (aluAdd_fst_toNat _ _) (aluAdd_flag_toNat _ _),
    decode_eq_ok_iff_of_family8 (n := 0x4) rfl rfl⟩

/-- Settles O29: the flagged write of a difference, `SUBN` with the operands exchanged, and the encodings. -/
theorem subtractionsWriteDifferenceThenNoBorrow : Obligations.SubtractionsWriteDifferenceThenNoBorrow := by
  unfold Obligations.SubtractionsWriteDifferenceThenNoBorrow
  intro x y s
  exact ⟨exec_setVFlag_next (i := .subReg x y) rfl (aluSub_fst_toNat _ _) (aluSub_flag_toNat _ _),
    exec_setVFlag_next (i := .subnReg x y) rfl (aluSub_fst_toNat _ _) (aluSub_flag_toNat _ _),
    decode_eq_ok_iff_of_family8 (n := 0x5) rfl rfl, decode_eq_ok_iff_of_family8 (n := 0x7) rfl rfl⟩

/-- Settles O30: the flagged write of `V[y]` shifted by one and the bit shifted out. -/
theorem shiftsMoveVyAndKeepTheBitShiftedOut : Obligations.ShiftsMoveVyAndKeepTheBitShiftedOut := by
  unfold Obligations.ShiftsMoveVyAndKeepTheBitShiftedOut
  intro x y s
  exact ⟨exec_setVFlag_next (i := .shrReg x y) rfl (aluShr_fst_toNat _) (aluShr_flag_toNat _),
    exec_setVFlag_next (i := .shlReg x y) rfl (aluShl_fst_toNat _) (aluShl_flag_toNat _)⟩

/-- Settles O31: one register write, of the sampled byte masked bit by bit. -/
theorem rndMasksTheSampledRandomByte : Obligations.RndMasksTheSampledRandomByte := by
  unfold Obligations.RndMasksTheSampledRandomByte
  exact fun x kk s => exec_setV_bits (i := .rnd x kk) rfl fun _ => BitVec.getLsbD_and

end Sys2Proof.Machine
end

section
/-! PROOFS. The index register and the three instructions that move bytes between memory at `I` and the registers: one
law each for a range that lies in memory and for one that does not (44_index_and_memory.md R150, R153, R154, R155). -/

namespace Sys2Proof.Machine

/-! ### LD I, nnn -/

/-- Settles O32: one write of `I`, and the encoding of its format. -/
theorem ldILoadsTheAddress : Obligations.LdILoadsTheAddress := by
  unfold Obligations.LdILoadsTheAddress
  refine fun nnn s => ⟨⟨_, rfl, zextAddr_toNat nnn, (completes_index s _).did⟩, fun op => ?_⟩
  rw [decode_eq_ok_iff (i := .ldI nnn) rfl, encode, encodeA_toNat]
  rfl

/-! ### A checked range at `I` (20_memory.md R51)

The range's last address is `a + k`; `h` is what the `_cases` lemma of an instruction says of it. -/

section CheckedRange

variable {i : Instr} {s t : State} {a k : Nat}
  (h : (inRange a (k + 1) ∧ exec i s = .next t) ∨
    (¬ inRange a (k + 1) ∧ exec i s = .next (s.raise .memoryOutOfBounds)))
include h

theorem exec_of_range_fits (hfit : a + k < Config.memSize) : exec i s = .next t := by
  rcases h with ⟨-, e⟩ | ⟨hout, -⟩
  · exact e
  · exact absurd (.inr hfit) hout

theorem exec_of_range_exceeds (hout : 4095 < a + k) :
    ∃ u, exec i s = .next u ∧ Raised .memoryOutOfBounds s u := by
  rcases h with ⟨hin, -⟩ | ⟨-, e⟩
  · have hend : a + k < 4096 := hin.resolve_left (Nat.succ_ne_zero k)
    omega
  · exact ⟨_, e, raised_raise s .memoryOutOfBounds⟩

end CheckedRange

/-- The advance of `I` past a range in memory does not wrap (92_eei_decisions.md D7). -/
theorem State.advanceI_i_toNat {s : State} {x : Reg} (hfit : s.i.toNat + x.val < Config.memSize) :
    (s.advanceI x).i.toNat = s.i.toNat + x.val + 1 := by
  have hlt : s.i.toNat + x.val < 4096 := hfit
  simp only [State.advanceI_i, BitVec.toNat_add, BitVec.toNat_ofNat]
  omega

/-! ### LD B, Vx -/

/-- A store of the digits of `b` at `a` leaves them, as numbers, at `a`, `a + 1`, `a + 2`. -/
theorem State.byteAt_store_decimalDigits {s : State} (hm : s.memWf) {a : Nat} (hfit : a + 3 ≤ Config.memSize)
    (b : Byte) :
    ((s.store a (decimalDigits b)).byteAt a).toNat = b.toNat / 100 ∧
    ((s.store a (decimalDigits b)).byteAt (a + 1)).toNat = b.toNat / 10 % 10 ∧
    ((s.store a (decimalDigits b)).byteAt (a + 2)).toNat = b.toNat % 10 := by
  have hdigit {k d : Nat} (hk : (decimalDigits b)[k]? = some (BitVec.ofNat 8 d)) (hd : d < 256) :
      ((s.store a (decimalDigits b)).byteAt (a + k)).toNat = d := by
    rw [State.byteAt_store_of_getElem? hm hfit hk, BitVec.toNat_ofNat, Nat.mod_eq_of_lt hd]
  have hb : b.toNat < 256 := b.isLt
  exact ⟨hdigit (k := 0) rfl (by omega), hdigit (k := 1) rfl (by omega), hdigit (k := 2) rfl (by omega)⟩

/-- Settles O34: the digits stand at the three places of the store, and a range past the end raises. -/
theorem ldBStoresDecimalDigits : Obligations.LdBStoresDecimalDigits := by
  unfold Obligations.LdBStoresDecimalDigits
  refine fun x s hm => ⟨?_, exec_of_range_exceeds (exec_ldB_cases x s)⟩
  rintro a (rfl : a = s.i.toNat) hend
  have hfit : s.i.toNat + 3 ≤ Config.memSize := Nat.succ_le_succ hend
  have hdone := completes_store s (bs := decimalDigits (s.getV x)) hfit
  obtain ⟨hhundreds, htens, hones⟩ := State.byteAt_store_decimalDigits hm hfit (s.getV x)
  exact ⟨_, exec_of_range_fits (exec_ldB_cases x s) hfit, rfl, hhundreds, htens, hones,
    fun _ hb => State.byteAt_store_outside hm hfit hb, hdone.did, hdone.memWf hm⟩

/-! ### LD [I], Vx -/

/-- Settles O35: the registers stand at the places of the store, `I` advances without wrapping, and a range past the end
raises. -/
theorem registerDumpStoresAndAdvancesI : Obligations.RegisterDumpStoresAndAdvancesI := by
  unfold Obligations.RegisterDumpStoresAndAdvancesI
  refine fun x s hm => ⟨?_, exec_of_range_exceeds (exec_ldMemVx_cases x s)⟩
  rintro a (rfl : a = s.i.toNat) hend
  have hfit : s.i.toNat + x.val < Config.memSize := Nat.lt_succ_of_le hend
  have hrange : s.i.toNat + (s.regsUpTo x).length ≤ Config.memSize := by
    rw [State.regsUpTo_length]
    exact hfit
  have hdone := completes_store_advanceI s hrange x
  refine ⟨_, exec_ldMemVx_of_fits hfit, rfl, fun _ => State.byteAt_store_regsUpTo hm hfit, fun b hb => ?_,
    State.advanceI_i_toNat hfit, hdone.did, hdone.memWf hm⟩
  refine State.byteAt_store_outside hm hrange ?_
  rwa [State.regsUpTo_length]

/-! ### LD Vx, [I] -/

/-- Loading bytes from `V[0]` on puts the byte at place `k` into `V[k]`. -/
theorem RegFile.setFrom_zero_of_getElem? (v : RegFile) {bs : List Byte} {k : Reg} {b : Byte}
    (hk : bs[k.val]? = some b) : (RegFile.setFrom v 0 bs)[k] = b := by
  refine (RegFile.getElem_setFrom bs v 0 k.val k.isLt).trans ?_
  rw [if_pos (Nat.zero_le _), Nat.sub_zero, hk, Option.getD_some]

/-- Settles O36: the bytes of the range go to the registers from `V[0]` on, none of them to a register above `x`, and a
range past the end raises. -/
theorem registerLoadReadsAndAdvancesI : Obligations.RegisterLoadReadsAndAdvancesI := by
  unfold Obligations.RegisterLoadReadsAndAdvancesI
  refine fun x s => ⟨fun hend => ?_, exec_of_range_exceeds (exec_ldVxMem_cases x s)⟩
  have hfit : s.i.toNat + x.val < Config.memSize := Nat.lt_succ_of_le hend
  refine ⟨_, exec_of_range_fits (exec_ldVxMem_cases x s) hfit, fun k hk => ?_, fun k hk => ?_,
    State.advanceI_i_toNat hfit, (completes_regs_advanceI s _ x).did⟩
  · refine RegFile.setFrom_zero_of_getElem? s.v ?_
    rw [State.bytesAt_getElem?, if_pos (Nat.lt_succ_of_le hk)]
  · refine RegFile.setFrom_zero_above s.v ?_
    rw [State.length_bytesAt]
    exact hk

end Sys2Proof.Machine
end

section
/-! PROOFS. `DRW` on a screen on which no two bits of a sprite meet, and `DRW` of a sprite that runs past memory
(45_display.md R162). -/

namespace Sys2Proof.Machine

/-- A range lies in memory when it is empty or its last address is at most 4095 (20_memory.md R51). -/
theorem inRange_iff_last_le {a n : Nat} : inRange a n ↔ n = 0 ∨ a + n - 1 ≤ 4095 := by
  simp only [inRange, Config.memSize]
  omega

/-- Beside `State.draw_covers`: a pixel that the sprite does not cover stays as it was. -/
theorem State.draw_of_not_covers (s : State) {x0 y0 n r c : Nat} (hW : 8 ≤ s.fb.width) (hH : 1 ≤ s.fb.height)
    (hn : n ≤ s.fb.height) (hout : ¬ SpriteCovers s x0 y0 n r c) :
    (s.fb.draw x0 y0 (s.bytesAt s.i.toNat n)).1.pixel r c = s.fb.pixel r c := by
  obtain ⟨hpixel, -⟩ := s.fb.draw_spec x0 y0 (s.bytesAt s.i.toNat n) hW hH (by simpa using hn)
  rw [spriteCovers_iff, Bool.not_eq_true] at hout
  rw [hpixel, hout, Bool.xor_false]

/-- Settles O39: a covered pixel is flipped, any other is kept, and `VF` is the collision of the draw. -/
theorem drwXorsTheSpriteAndReportsCollision : Obligations.DrwXorsTheSpriteAndReportsCollision := by
  unfold Obligations.DrwXorsTheSpriteAndReportsCollision
  intro x y n s hW hH hn hmem
  obtain ⟨t, ht, hfb, hVF, hregs, hdid⟩ := exec_drw_next x y n (inRange_iff_last_le.2 hmem)
  obtain ⟨hflip, hhit⟩ := s.draw_covers (s.getV x).toNat (s.getV y).toNat n.val hW hH hn
  refine ⟨t, ht, fun r c _ _ => ?_, hVF ▸ flagByte_zero_or_one _, ?_, hregs, hdid⟩
  · rw [hfb]
    exact ⟨hflip r c, s.draw_of_not_covers hW hH hn⟩
  · rw [hVF]
    exact flagByte_eq_one.trans hhit

/-- Settles O41: the sprite is checked as a whole before anything is drawn. -/
theorem drwOutOfRangeRaises : Obligations.DrwOutOfRangeRaises := by
  unfold Obligations.DrwOutOfRangeRaises
  intro x y n s hpos hpast
  rcases exec_drw_cases x y n s with ⟨hin, -⟩ | ⟨-, hraise⟩
  · have hlast := inRange_iff_last_le.1 hin
    omega
  · exact ⟨_, hraise, raised_raise s .memoryOutOfBounds⟩

end Sys2Proof.Machine
end

section
/-! PROOFS. The timer loads and the key wait: one law for `LD Vx, K` that waits, one for `LD Vx, K` that takes a key,
and the whole Step of a waiting one (46_timers_and_keys.md R170 to R173). -/

namespace Sys2Proof.Machine

/-! ### LD Vx, K -/

/-- `LD Vx, K` with no key pressed is a jump back to its own word (46_timers_and_keys.md R171). -/
theorem exec_ldVxK_wait (x : Reg) {s : State} (hup : ∀ k, k < 16 → s.keyDown k = false) :
    ∃ t, exec (.ldVxK x) s = .next t ∧ t.pc = s.pc - 2 ∧ Did [.pc] s t := by
  have hnone : s.lowestKey = none := State.lowestKey_eq_none.2 hup
  refine exec_jump_next ?_
  rw [exec, execLdVxK, hnone]
  rfl

/-- `LD Vx, K` with `k` the least pressed key is a register load of it (46_timers_and_keys.md R171). -/
theorem exec_ldVxK_take (x : Reg) {s : State} {k : Nat} (hk : k < 16) (hdown : s.keyDown k = true)
    (hleast : ∀ j, j < k → s.keyDown j = false) :
    ∃ t, exec (.ldVxK x) s = .next t ∧ t.getV x = BitVec.ofNat 8 k ∧ (∀ r, r ≠ x → t.getV r = s.getV r) ∧
      Did [.regs] s t := by
  have hsome : s.lowestKey = some k := State.lowestKey_eq_some.2 ⟨hk, hdown, hleast⟩
  refine exec_setV_next ?_
  rw [exec, execLdVxK, hsome]

/-- Settles O47: the advance of the Step and the jump back cancel, so no piece of the block has changed, and the next
fetch reads the same two bytes. -/
theorem keyWaitStepChangesNothing : Obligations.KeyWaitStepChangesNothing := by
  unfold Obligations.KeyWaitStepChangesNothing
  intro s rnd rest op x hp hf hd
  have hstep : step s = exec (.ldVxK x) (State.sample { s with pending := rest } 0 rnd).advance :=
    (step_of_pending hp).trans (stepTransaction_of_decode (s := { s with pending := rest }) hf hd)
  obtain ⟨t, ht, hpc, hframe, hret, -, -, hpending, -⟩ :=
    exec_ldVxK_wait x (s := (State.sample { s with pending := rest } 0 rnd).advance)
      fun k _ => BitVec.getLsbD_zero
  have hback : t.pc = s.pc := hpc.trans (BitVec.add_sub_cancel s.pc 2)
  have hsame : Frame [] s t := ((frame_sample_advance s rest 0 rnd).trans hframe).of_pc_eq hback
  have hmem : Unchanged .memory s t := hsame.2 .memory List.not_mem_nil
  exact ⟨t, hstep.trans ht, hsame, hret, hpending, (State.fetch_congr hback hmem).trans hf⟩

/-- Settles O46: the two laws of `LD Vx, K`; the number of a key fits a byte. -/
theorem keyWaitTakesTheLeastKeyOrRepeats : Obligations.KeyWaitTakesTheLeastKeyOrRepeats := by
  unfold Obligations.KeyWaitTakesTheLeastKeyOrRepeats
  refine fun x s => ⟨exec_ldVxK_wait x, fun k hk hdown hleast => ?_⟩
  obtain ⟨t, ht, hx, hframe⟩ := exec_ldVxK_take x hk hdown hleast
  have hnumber : (t.getV x).toNat = k := by
    rw [hx, BitVec.toNat_ofNat, Nat.mod_eq_of_lt (by omega)]
  exact ⟨t, ht, hnumber, hframe⟩

/-! ### The timer loads -/

/-- `DT` under a row of Ticks (60_exceptions.md R198). -/
theorem State.tick_iterate_dt_toNat (s : State) (n : Nat) : (State.tick^[n] s).dt.toNat = s.dt.toNat - n := by
  have hdt : s.dt.toNat < 256 := s.dt.isLt
  rw [← tickMany_eq_iterate, State.tickMany_dt, BitVec.toNat_ofNat, Nat.mod_eq_of_lt (by omega)]

/-- Settles O44: one write of `DT`, which the Ticks count down from; the encoding of its format; and one register
write. -/
theorem delayTimerLoads : Obligations.DelayTimerLoads := by
  unfold Obligations.DelayTimerLoads
  refine fun x s => ⟨?_, fun op => ?_, exec_setV_next (i := .ldVxDt x) rfl⟩
  · have hdone := did_succeed (frame_delay s (s.getV x)) rfl ⟨rfl, rfl, rfl, rfl⟩
    exact ⟨_, rfl, rfl, hdone, State.tick_iterate_dt_toNat _⟩
  · have hword : op.toNat = 0xF * 4096 + x.val * 256 + 0x15 ↔ op.toNat = 0xF015 + x.val * 256 := by omega
    exact (decode_eq_ok_iff_of_encodeXK (i := .ldDtVx x) (h := 0xF) (kk := 0x15) rfl rfl op).trans hword

/-- Settles O45: one write of `ST`, and `BEEP` is not a piece of it. -/
theorem soundTimerLoadLeavesBeep : Obligations.SoundTimerLoadLeavesBeep := by
  unfold Obligations.SoundTimerLoadLeavesBeep
  intro x s
  have hdone := did_succeed (frame_sound s (s.getV x)) rfl ⟨rfl, rfl, rfl, rfl⟩
  exact ⟨_, rfl, rfl, rfl, hdone⟩

end Sys2Proof.Machine
end

section
/-! PROOFS. The errors: which instruction raises which error, said once for all of them; the errors of a whole Step and
of `Load`; and the record of the first error over every transaction (60_exceptions.md R180 to R191). -/

namespace Sys2Proof.Machine

/-! ### The error of an instruction -/

/-- The error an instruction raises in the state it executes from, if any (60_exceptions.md R181 to R184):
`exec_raises_cases` ties it to `exec`. -/
def Instr.raises (s : State) : Instr → Option ErrorKind
  | .sys nnn => some (.unknownOpcode (sysWord nnn))
  | .ret => if s.sp.val = 0 then some .stackUnderflow else none
  | .call _ => if s.sp.val = Config.stackDepth then some .stackOverflow else none
  | .drw _ _ n => if inRange s.i.toNat n.val then none else some .memoryOutOfBounds
  | .ldB _ => if inRange s.i.toNat 3 then none else some .memoryOutOfBounds
  | .ldMemVx x | .ldVxMem x => if inRange s.i.toNat (x.val + 1) then none else some .memoryOutOfBounds
  | _ => none

/-- The memory instructions: the range decides both the error and the way the instruction ends. -/
theorem exec_raises_of_range {i : Instr} {s t : State} {a n : Nat}
    (hraises : Instr.raises s i = if inRange a n then none else some .memoryOutOfBounds) (hok : t.result = .ok)
    (hcases : (inRange a n ∧ exec i s = .next t) ∨ (¬ inRange a n ∧ exec i s = .next (s.raise .memoryOutOfBounds))) :
    (∃ e, Instr.raises s i = some e ∧ exec i s = .next (s.raise e)) ∨
      (Instr.raises s i = none ∧ ∃ t, exec i s = .next t ∧ t.result = .ok) := by
  rw [hraises]
  rcases hcases with ⟨hin, e⟩ | ⟨hout, e⟩
  · exact .inr ⟨if_pos hin, t, e, hok⟩
  · exact .inl ⟨_, if_neg hout, e⟩

/-- An instruction raises its error, or has none and returns `Ok`. -/
theorem exec_raises_cases (i : Instr) (s : State) :
    (∃ e, Instr.raises s i = some e ∧ exec i s = .next (s.raise e)) ∨
      (Instr.raises s i = none ∧ ∃ t, exec i s = .next t ∧ t.result = .ok) := by
  cases i
  case sys nnn => exact .inl ⟨_, rfl, rfl⟩
  case ret =>
    rcases exec_ret_cases s with ⟨hempty, e⟩ | ⟨_, hpos, e⟩
    · exact .inl ⟨_, if_pos hempty, e⟩
    · exact .inr ⟨if_neg (Nat.ne_of_gt hpos), _, e, rfl⟩
  case call nnn =>
    rcases exec_call_cases nnn s with ⟨hfree, e⟩ | ⟨hfull, e⟩
    · exact .inr ⟨if_neg (Nat.ne_of_lt hfree), _, e, rfl⟩
    · exact .inl ⟨_, if_pos hfull, e⟩
  case drw x y n => exact exec_raises_of_range rfl rfl (exec_drw_cases x y n s)
  case ldB x => exact exec_raises_of_range rfl rfl (exec_ldB_cases x s)
  case ldMemVx x => exact exec_raises_of_range rfl rfl (exec_ldMemVx_cases x s)
  case ldVxMem x => exact exec_raises_of_range rfl rfl (exec_ldVxMem_cases x s)
  all_goals exact .inr ⟨rfl, _, rfl, rfl⟩

theorem exec_of_raises {i : Instr} {s : State} {e : ErrorKind} (h : Instr.raises s i = some e) :
    exec i s = .next (s.raise e) := by
  rcases exec_raises_cases i s with ⟨e', h', hexec⟩ | ⟨hnone, -⟩
  · obtain rfl := Option.some.inj (h.symm.trans h')
    exact hexec
  · exact absurd (h.symm.trans hnone) (Option.some_ne_none e)

theorem exec_result_eq_err_iff {i : Instr} {s t : State} (h : exec i s = .next t) (e : ErrorKind) :
    t.result = .err e ↔ Instr.raises s i = some e := by
  rcases exec_raises_cases i s with ⟨e', h', hexec⟩ | ⟨hnone, u, hexec, hok⟩ <;>
    obtain rfl := Host.Outcome.next.inj (h.symm.trans hexec)
  · simp [h']
  · simp [hnone, hok]

/-! ### The causes of each error -/

/-- `SYS` alone, with its word (60_exceptions.md R182). -/
theorem raises_unknownOpcode_iff {i : Instr} {s : State} {op : Word} :
    Instr.raises s i = some (.unknownOpcode op) ↔ ∃ nnn, i = .sys nnn ∧ sysWord nnn = op := by
  cases i <;> simp [Instr.raises]

/-- `CALL` alone (60_exceptions.md R183). -/
theorem raises_stackOverflow_iff {i : Instr} {s : State} :
    Instr.raises s i = some .stackOverflow ↔ ∃ nnn, i = .call nnn ∧ s.sp.val = Config.stackDepth := by
  cases i <;> simp [Instr.raises]

/-- `RET` alone (60_exceptions.md R184). -/
theorem raises_stackUnderflow_iff {i : Instr} {s : State} :
    Instr.raises s i = some .stackUnderflow ↔ i = .ret ∧ s.sp.val = 0 := by
  cases i <;> simp [Instr.raises]

/-- The four memory instructions, by the last address of the range (60_exceptions.md R181). -/
theorem raises_memoryOutOfBounds_iff {i : Instr} {s : State} :
    Instr.raises s i = some .memoryOutOfBounds ↔
      (∃ x y n, i = .drw x y n ∧ 0 < n.val ∧ 4095 < s.i.toNat + n.val - 1) ∨
      (∃ x, i = .ldB x ∧ 4095 < s.i.toNat + 2) ∨
      (∃ x, i = .ldMemVx x ∧ 4095 < s.i.toNat + x.val) ∨
      (∃ x, i = .ldVxMem x ∧ 4095 < s.i.toNat + x.val) := by
  cases i
  case drw | ldB | ldMemVx | ldVxMem =>
    simp [Instr.raises, inRange, Config.memSize]
    omega
  all_goals simp [Instr.raises]

/-- Neither is an error of an instruction (60_exceptions.md R185, R186). -/
theorem raises_ne_of_construction_error (i : Instr) (s : State) :
    Instr.raises s i ≠ some .romTooLarge ∧ Instr.raises s i ≠ some .invalidDimensions := by
  cases i <;> simp [Instr.raises]

/-- Settles O14: kind by kind, the causes of the error the instruction raises. -/
theorem errorCausesOfInstructions : Obligations.ErrorCausesOfInstructions := by
  unfold Obligations.ErrorCausesOfInstructions
  intro i s t e h
  rw [exec_result_eq_err_iff h]
  obtain ⟨hrom, hdims⟩ := raises_ne_of_construction_error i s
  cases e with
  | unknownOpcode op =>
    refine raises_unknownOpcode_iff.trans (exists_congr fun nnn => and_congr_right fun _ => ?_)
    rw [← BitVec.toNat_inj, sysWord_toNat, eq_comm]
  | stackOverflow => exact raises_stackOverflow_iff
  | stackUnderflow => exact raises_stackUnderflow_iff
  | memoryOutOfBounds => exact raises_memoryOutOfBounds_iff
  | romTooLarge => exact iff_false_intro hrom
  | invalidDimensions => exact iff_false_intro hdims

/-- Settles O18: the error of `RET`, and its two ways to end. -/
theorem retOnEmptyStackRaises : Obligations.RetOnEmptyStackRaises := by
  unfold Obligations.RetOnEmptyStackRaises
  refine fun s => ⟨fun hempty => ?_, fun hsp => ?_⟩
  · exact ⟨_, exec_of_raises (raises_stackUnderflow_iff.2 ⟨rfl, hempty⟩), raised_raise s .stackUnderflow⟩
  · obtain ⟨t, ht, -, -, -, -, ⟨hok, -⟩, -⟩ := exec_ret_next (Nat.pos_of_ne_zero hsp)
    exact ⟨t, ht, hok⟩

/-! ### The errors of a Step (60_exceptions.md R188) -/

/-- EVERY ERROR OF A STEP: the fetch raised with only the inputs sampled, or with `pc` advanced the word was illegal or
its instruction raised. -/
theorem stepTransaction_err_cases {k : BitVec 16} {b : Byte} {s t : State} {e : ErrorKind}
    (h : stepTransaction k b s = .next t) (herr : t.result = .err e) :
    (Config.memSize ≤ s.pc.toNat + 1 ∧ e = .memoryOutOfBounds ∧ t = (s.sample k b).raise e) ∨
    ∃ op, s.fetch = .ok op ∧ t = (s.sample k b).advance.raise e ∧
      ((∃ er, decode op = .error er) ∧ e = .unknownOpcode op ∨
        ∃ i, decode op = .ok i ∧ Instr.raises (s.sample k b).advance i = some e) := by
  rcases stepTransaction_cases k b s with ⟨hpc, hstep⟩ | ⟨op, er, hf, hd, hstep⟩ | ⟨op, i, hf, hd, hstep⟩
  · obtain rfl := Host.Outcome.next.inj (h.symm.trans hstep)
    obtain rfl := TxResult.err.inj herr
    exact .inl ⟨hpc, rfl, rfl⟩
  · obtain rfl := Host.Outcome.next.inj (h.symm.trans hstep)
    obtain rfl := TxResult.err.inj herr
    exact .inr ⟨op, hf, rfl, .inl ⟨⟨er, hd⟩, rfl⟩⟩
  · have hexec := hstep.symm.trans h
    have hraises := (exec_result_eq_err_iff hexec e).1 herr
    obtain rfl := Host.Outcome.next.inj (hexec.symm.trans (exec_of_raises hraises))
    exact .inr ⟨op, hf, rfl, .inr ⟨i, hd, hraises⟩⟩

/-- `SYS` raises with the very word it was decoded from (41_control_transfer.md R110). -/
theorem sysWord_eq_of_decode {op : Word} {nnn : BitVec 12} (h : decode op = .ok (.sys nnn)) : sysWord nnn = op :=
  (wf_and_encode_of_decode h).2

/-- A Step whose word is illegal or `SYS` (60_exceptions.md R182). -/
theorem stepTransaction_unknownOpcode {s : State} {op : Word} (hf : s.fetch = .ok op)
    (hd : (∃ e, decode op = .error e) ∨ ∃ nnn, decode op = .ok (.sys nnn)) (k : BitVec 16) (b : Byte) :
    stepTransaction k b s = .next ((s.sample k b).advance.raise (.unknownOpcode op)) := by
  rcases hd with ⟨e, hd⟩ | ⟨nnn, hd⟩
  · simp only [stepTransaction, State.fetch_sample, hf, State.orFail_ok, State.decodeAndExecute, hd, State.fail_eq]
  · rw [stepTransaction_of_decode hf hd, exec_of_raises rfl, sysWord_eq_of_decode hd]

/-- An error of a queued Step past its fetch changes only `pc` of the block. -/
theorem frame_sample_advance_raise (s : State) (rest : List Transaction) (k : BitVec 16) (b : Byte) (e : ErrorKind) :
    Frame [.pc] s ((State.sample { s with pending := rest } k b).advance.raise e) := by
  obtain ⟨hraise, -⟩ := raised_raise (State.sample { s with pending := rest } k b).advance e
  exact (frame_sample_advance s rest k b).trans (hraise.mono (by simp))

/-- Settles O12: a Step raises `UnknownOpcode` in its decode or as `SYS`, and `SYS` holds the word it came from. -/
theorem unknownOpcodeRaisedExactlyForIllegalAndSys : Obligations.UnknownOpcodeRaisedExactlyForIllegalAndSys := by
  unfold Obligations.UnknownOpcodeRaisedExactlyForIllegalAndSys
  intro s keys rnd rest op hp hf
  have hstep : step s = stepTransaction keys rnd { s with pending := rest } := step_of_pending hp
  refine ⟨fun hd => ?_, fun t op' ht herr => ?_⟩
  · have hraise := stepTransaction_unknownOpcode (s := { s with pending := rest }) hf hd keys rnd
    exact ⟨_, hstep.trans hraise, frame_sample_advance_raise s rest keys rnd _, rfl, ⟨rfl, rfl⟩, rfl⟩
  · rcases stepTransaction_err_cases (hstep.symm.trans ht) herr with ⟨-, hkind, -⟩ | ⟨op₁, hf₁, -, hcause⟩
    · cases hkind
    · obtain rfl := Except.ok.inj (hf.symm.trans hf₁)
      rcases hcause with ⟨hd, hkind⟩ | ⟨i, hd, hraises⟩
      · exact ⟨ErrorKind.unknownOpcode.inj hkind, .inl hd⟩
      · obtain ⟨nnn, rfl, hword⟩ := raises_unknownOpcode_iff.1 hraises
        exact ⟨hword.symm.trans (sysWord_eq_of_decode hd), .inr ⟨nnn, hd⟩⟩

/-- Settles O13: the two kinds of states a Step that returns an error leaves. -/
theorem stepErrorChangesNothingButPc : Obligations.StepErrorChangesNothingButPc := by
  unfold Obligations.StepErrorChangesNothingButPc
  intro s t keys rnd rest e hp ht herr
  rw [step_of_pending hp] at ht
  rcases stepTransaction_err_cases ht herr with ⟨hpc, hkind, rfl⟩ | ⟨op, hf, rfl, -⟩
  · obtain ⟨hframe, -⟩ := raised_raise (State.sample { s with pending := rest } keys rnd) e
    exact .inl ⟨hpc, hkind, hframe⟩
  · exact .inr ⟨State.pc_lt_of_fetch hf, rfl, frame_sample_advance_raise s rest keys rnd e⟩

/-! ### A ROM that is too large (60_exceptions.md R185) -/

theorem stepTransaction_ne_romTooLarge {k : BitVec 16} {b : Byte} {s t : State}
    (h : stepTransaction k b s = .next t) : t.result ≠ .err .romTooLarge := by
  intro herr
  rcases stepTransaction_err_cases h herr with ⟨-, hkind, -⟩ | ⟨op, -, -, ⟨-, hkind⟩ | ⟨i, -, hraises⟩⟩
  · cases hkind
  · cases hkind
  · exact (raises_ne_of_construction_error i _).1 hraises

theorem State.load_of_too_large {s : State} {rom : List Byte} (h : Config.romMax < rom.length) :
    s.load rom = s.raise .romTooLarge := by
  rcases s.load_cases rom with ⟨-, e⟩ | ⟨hle, -⟩ | ⟨hle, -⟩
  · exact e
  all_goals exact absurd h (Nat.not_lt.2 hle)

/-- Settles O56: the length is checked before anything is rebuilt, and it is no error of a Step. -/
theorem loadTooLargeChangesNothing : Obligations.LoadTooLargeChangesNothing := by
  unfold Obligations.LoadTooLargeChangesNothing
  refine ⟨fun s rom rest hp => ⟨fun hlong => ?_, fun hlen hw hh => ?_⟩, fun s t keys rnd rest hp ht => ?_⟩
  · obtain ⟨hframe, hret, -⟩ := raised_raise { s with pending := rest } .romTooLarge
    have hload := State.load_of_too_large (s := { s with pending := rest }) hlong
    exact ⟨_, (step_of_pending hp).trans (congrArg Host.Outcome.next hload), hframe, hret, rfl⟩
  · obtain ⟨t, ht, hok, -⟩ := loadRebuildsTheStateAndCopiesTheRom s rom rest hp hlen hw hh
    exact ⟨t, ht, hok⟩
  · exact stepTransaction_ne_romTooLarge ((step_of_pending hp).symm.trans ht)

/-! ### The record of the first error (93_implementation_defined.md U1) -/

theorem exec_returned {i : Instr} {s t : State} (h : exec i s = .next t) : ∃ r, Returned r s t := by
  rcases exec_inv h with ⟨⟨-, hret, -⟩, -⟩ | ⟨e, rfl⟩
  · exact ⟨_, hret⟩
  · exact ⟨.err e, rfl, rfl⟩

theorem stepTransaction_returned {k : BitVec 16} {b : Byte} {s t : State} (h : stepTransaction k b s = .next t) :
    ∃ r, Returned r s t := by
  rcases stepTransaction_cases k b s with ⟨-, e⟩ | ⟨op, er, -, -, e⟩ | ⟨op, i, -, -, e⟩
  · obtain rfl := Host.Outcome.next.inj (h.symm.trans e)
    exact ⟨.err .memoryOutOfBounds, rfl, rfl⟩
  · obtain rfl := Host.Outcome.next.inj (h.symm.trans e)
    exact ⟨.err (.unknownOpcode op), rfl, rfl⟩
  · exact exec_returned (s := (s.sample k b).advance) (e.symm.trans h)

theorem State.construct_returned (s : State) : ∃ r, Returned r s s.construct := by
  rcases s.construct_cases with ⟨-, e⟩ | ⟨-, -, e⟩ <;> rw [e]
  · exact ⟨.err .invalidDimensions, rfl, rfl⟩
  · exact ⟨.ok, rfl, rfl⟩

theorem State.load_returned (rom : List Byte) (s : State) : ∃ r, Returned r s (s.load rom) := by
  rcases s.load_cases rom with ⟨-, e⟩ | ⟨-, -, e⟩ | ⟨-, -, -, e⟩ <;> rw [e]
  · exact ⟨.err .romTooLarge, rfl, rfl⟩
  · exact ⟨.err .invalidDimensions, rfl, rfl⟩
  · exact ⟨.ok, rfl, rfl⟩

/-- Every step of the model returns a result and records it, or is a Tick, which returns none and keeps both fields
(log entry 1). -/
theorem step_returned {s t : State} (h : step s = .next t) :
    (∃ r, Returned r s t) ∨ t.result = s.result ∧ t.firstError = s.firstError := by
  cases hp : s.pending with
  | nil =>
    rw [step_of_empty hp] at h
    exact .inl (stepTransaction_returned
      (s := State.tickMany { s with draws := s.draws + 1 } (Config.freeTicks s.draws)) h)
  | cons tr rest =>
    rw [step_of_pending hp] at h
    cases tr with
    | construct => exact .inl (Host.Outcome.next.inj h ▸ State.construct_returned { s with pending := rest })
    | load rom => exact .inl (Host.Outcome.next.inj h ▸ State.load_returned rom { s with pending := rest })
    | step keys rnd => exact .inl (stepTransaction_returned (s := { s with pending := rest }) h)
    | tick =>
      obtain rfl := Host.Outcome.next.inj h
      exact .inr ⟨rfl, rfl⟩

/-- Settles O15: an `Ok` keeps the record, an error fills it only when it is empty, and a Tick keeps it. -/
theorem firstErrorIsKept : Obligations.FirstErrorIsKept := by
  unfold Obligations.FirstErrorIsKept
  intro s t h
  rcases step_returned h with ⟨r, hres, hrec⟩ | ⟨hres, hrec⟩
  · cases r with
    | ok =>
      have hkept : t.firstError = s.firstError := hrec
      refine ⟨fun e he => hkept.trans he, fun hnone e he => ?_, fun e _ _ herr => ?_⟩
      · cases he.symm.trans (hkept.trans hnone)
      · cases herr.symm.trans hres
    | err e =>
      have hor : t.firstError = s.firstError.or (some e) := hrec
      have hfirst (hnone : s.firstError = none) : t.firstError = some e := by rw [hor, hnone, Option.none_or]
      refine ⟨fun e' he => ?_, fun hnone e' he => ?_, fun e' hnone _ herr => ?_⟩
      · rw [hor, he, Option.some_or]
      · rw [hres, Option.some.inj ((hfirst hnone).symm.trans he)]
      · rw [hfirst hnone, TxResult.err.inj (hres.symm.trans herr)]
  · refine ⟨fun e he => hrec.trans he, fun hnone e he => ?_, fun e _ hok herr => ?_⟩
    · cases he.symm.trans (hrec.trans hnone)
    · cases herr.symm.trans (hres.trans hok)

end Sys2Proof.Machine
end

section
/-! PROOFS. The `Tick`, alone and many in a row; and the inputs of a Step, which reach only the instructions that read
them (60_exceptions.md R198, R199, R202). -/

namespace Sys2Proof.Machine

/-! ### Ticks (60_exceptions.md R198, R199) -/

/-- `ST` under a row of Ticks. -/
theorem State.tick_iterate_st_toNat (s : State) (n : Nat) : (State.tick^[n] s).st.toNat = s.st.toNat - n := by
  have hst : s.st.toNat < 256 := s.st.isLt
  rw [← tickMany_eq_iterate, State.tickMany_st, BitVec.toNat_ofNat, Nat.mod_eq_of_lt (by omega)]

/-- `BEEP` after the last of a row of Ticks: the `n`-th still finds `ST` above 0 exactly when `n` is at most `ST`. -/
theorem State.tick_iterate_beep (s : State) {n : Nat} (hn : 1 ≤ n) :
    (State.tick^[n] s).beep = true ↔ n ≤ s.st.toNat := by
  rw [← tickMany_eq_iterate, State.tickMany_beep, if_neg (Nat.ne_of_gt hn), decide_eq_true_iff]

theorem frame_tick_iterate (s : State) (n : Nat) : Frame [.delay, .sound, .beep] s (State.tick^[n] s) :=
  tickMany_eq_iterate n s ▸ frame_tickMany s n

/-- Settles O49: the closed form of many Ticks, timer by timer. -/
theorem beepSoundsForSoundTimerTicks : Obligations.BeepSoundsForSoundTimerTicks := by
  unfold Obligations.BeepSoundsForSoundTimerTicks
  exact fun n s => ⟨s.tick_iterate_dt_toNat n, s.tick_iterate_st_toNat n, s.tick_iterate_beep, frame_tick_iterate s n⟩

/-- Settles O48: a row of one Tick. -/
theorem tickCountsDownBothTimers : Obligations.TickCountsDownBothTimers := by
  unfold Obligations.TickCountsDownBothTimers
  intro s rest hp
  have hbeep := State.tick_iterate_beep { s with pending := rest } (Nat.le_refl 1)
  exact ⟨_, step_of_pending hp, countDown_toNat s.dt, countDown_toNat s.st, hbeep,
    frame_tick { s with pending := rest }, rfl, rfl, rfl⟩

/-! ### The inputs of a Step (60_exceptions.md R202) -/

/-- The same outcome with other inputs in the state. -/
def resample (k : BitVec 16) (b : Byte) : Host.Outcome State Fault Refusal → Host.Outcome State Fault Refusal
  | .next t => .next (t.sample k b)
  | .fault r => .fault r
  | .refused r => .refused r

theorem skipIf_sample_succeed (s : State) (c : Bool) (k : BitVec 16) (b : Byte) :
    ((s.sample k b).skipIf c).succeed = resample k b (s.skipIf c).succeed := by
  cases c <;> rfl

/-- A check reads neither input, so only what follows it can. -/
theorem orFail_sample {α : Type} {s : State} {k : BitVec 16} {b : Byte} {f g : α → Host.Outcome State Fault Refusal}
    (r : Except ErrorKind α) (h : ∀ a, g a = resample k b (f a)) :
    (s.sample k b).orFail r g = resample k b (s.orFail r f) := by
  cases r with
  | error e => rfl
  | ok a => exact h a

/-- A branch on a condition that neither input decides. -/
theorem dite_sample {c : Prop} [Decidable c] {k : BitVec 16} {b : Byte} {f f' : c → Host.Outcome State Fault Refusal}
    {g g' : ¬ c → Host.Outcome State Fault Refusal} (hf : ∀ h, f' h = resample k b (f h))
    (hg : ∀ h, g' h = resample k b (g h)) : dite c f' g' = resample k b (dite c f g) := by
  by_cases h : c
  · rw [dif_pos h, dif_pos h, hf h]
  · rw [dif_neg h, dif_neg h, hg h]

theorem execLdVxK_sample (x : Reg) (s : State) (b : Byte) :
    execLdVxK x (s.sample s.keys b) = resample s.keys b (execLdVxK x s) := by
  have hkey : (s.sample s.keys b).lowestKey = s.lowestKey := rfl
  simp only [execLdVxK, hkey]
  cases s.lowestKey <;> rfl

/-- A checked write, and what follows it in the state it answers. -/
theorem orFail_writeMem_sample {s : State} {k : BitVec 16} {b : Byte} {f : State → Host.Outcome State Fault Refusal}
    (a : Nat) (bs : List Byte) (h : ∀ t, f (t.sample k b) = resample k b (f t)) :
    (s.sample k b).orFail ((s.sample k b).writeMem a bs) f = resample k b (s.orFail (s.writeMem a bs) f) := by
  by_cases hfit : inRange a bs.length
  · simp only [State.writeMem, if_pos hfit, State.orFail_ok]
    exact h (s.store a bs)
  · simp only [State.writeMem, if_neg hfit]
    rfl

/-- With other inputs, but for those it reads, an instruction has the same outcome. -/
theorem exec_sample {i : Instr} {s : State} {k : BitVec 16} {b : Byte} (hk : Instr.readsKeys i → k = s.keys)
    (hb : Instr.readsRnd i → b = s.rnd) : exec i (s.sample k b) = resample k b (exec i s) := by
  cases i
  case ret | call => exact dite_sample (fun _ => rfl) fun _ => rfl
  case seImm | sneImm | seReg | sneReg => exact skipIf_sample_succeed s _ k b
  case skp x =>
    obtain rfl := hk ⟨x, .inl rfl⟩
    exact skipIf_sample_succeed s _ _ b
  case sknp x =>
    obtain rfl := hk ⟨x, .inr (.inl rfl)⟩
    exact skipIf_sample_succeed s _ _ b
  case ldVxK x =>
    obtain rfl := hk ⟨x, .inr (.inr rfl)⟩
    exact execLdVxK_sample x s b
  case rnd x kk =>
    obtain rfl := hb ⟨x, kk, rfl⟩
    rfl
  case drw x y n => exact orFail_sample (s.readMem (s.dataAddr 0) n.val) fun _ => rfl
  case ldVxMem x => exact orFail_sample (s.readMem (s.dataAddr 0) (x.val + 1)) fun _ => rfl
  case ldB x => exact orFail_writeMem_sample (s.dataAddr 0) (decimalDigits (s.getV x)) fun _ => rfl
  case ldMemVx x => exact orFail_writeMem_sample (s.dataAddr 0) (s.regsUpTo x) fun _ => rfl
  all_goals rfl

/-- Settles O53: the second execution is the first with other inputs, which are no piece of the block. -/
theorem inputsReachOnlyTheirReaders : Obligations.InputsReachOnlyTheirReaders := by
  unfold Obligations.InputsReachOnlyTheirReaders
  intro i s t t' k k' b b' h h' hk hb
  have hsame := exec_sample (s := s.sample k b) (k := k') (b := b') (fun hi => (hk hi).symm) fun hi => (hb hi).symm
  rw [h] at hsame
  obtain rfl : t' = t.sample k' b' := Host.Outcome.next.inj (h'.symm.trans hsame)
  exact ⟨Frame.refl [] t, rfl, rfl⟩

end Sys2Proof.Machine
end

section
/-! PROOFS. The rest state, and the first fetch after a Load (70_reset_and_hazards.md R213, R227). -/

namespace Sys2Proof.Machine

/-! ### The rest state (R227) -/

/-- The word of a jump to its own address. -/
theorem decode_selfJump {a : Word} (ha : a.toNat ≤ 0xFFE) :
    decode (0x1000 + a) = .ok (.jp (BitVec.ofNat 12 a.toNat)) := by
  have hword : (0x1000 + a).toNat = 0x1000 + a.toNat := by
    have hlt : 0x1000 + a.toNat < 2 ^ 16 := by omega
    exact (BitVec.toNat_add _ _).trans (Nat.mod_eq_of_lt hlt)
  rw [decode_eq_ok_iff rfl, encode, encodeA_toNat, hword, BitVec.toNat_ofNat, Nat.mod_eq_of_lt (by omega)]
  rfl

/-- Being at rest is a matter of `pc` and memory. -/
theorem State.atRest_congr {s t : State} (h : s.atRest) (hpc : Unchanged .pc s t) (hmem : Unchanged .memory s t) :
    t.atRest := by
  obtain ⟨hle, hf⟩ := h
  have hsame : t.pc = s.pc := hpc
  exact ⟨hsame ▸ hle, (State.fetch_congr hsame hmem).trans (hsame ▸ hf)⟩

/-- Settles O54: the idle loop of `JP`; neither a Step of it nor a Tick changes `pc` or memory. -/
theorem selfJumpIsTheRestState : Obligations.SelfJumpIsTheRestState := by
  unfold Obligations.SelfJumpIsTheRestState
  refine fun s hrest => ⟨fun keys rnd rest hp => ?_, s.atRest_congr hrest rfl fun _ => rfl⟩
  obtain ⟨hle, hf⟩ := hrest
  have hself : s.pc.toNat = (BitVec.ofNat 12 s.pc.toNat).toNat := by
    rw [BitVec.toNat_ofNat, Nat.mod_eq_of_lt (by omega)]
  obtain ⟨t, ht, hframe, hret⟩ := step_selfJump hp hf (decode_selfJump hle) hself
  exact ⟨t, ht, hframe, hret, State.atRest_congr ⟨hle, hf⟩ (hframe.2 .pc List.not_mem_nil)
    (hframe.2 .memory List.not_mem_nil)⟩

/-! ### The first fetch after a Load (R213) -/

/-- Settles O58: what a Load leaves at 0x200 is where `pc` points. -/
theorem firstStepFetchesTheFirstTwoRomBytes : Obligations.FirstStepFetchesTheFirstTwoRomBytes := by
  unfold Obligations.FirstStepFetchesTheFirstTwoRomBytes
  intro s b0 b1 bs rest hp hlen hw hh
  obtain ⟨t, ht, -, -, hrom, -, ⟨-, hframe⟩, -⟩ := loadRebuildsTheStateAndCopiesTheRom s _ rest hp hlen hw hh
  have hpc : t.pc = 0x200 := hframe .pc (by decide)
  have hf := State.fetch_of_pc_lt (s := t) (by rw [hpc]; decide)
  have h0 : t.byteAt 0x200 = b0 := hrom 0 b0 rfl
  have h1 : t.byteAt 0x201 = b1 := hrom 1 b1 rfl
  refine ⟨t, _, ht, hpc, hf, ?_⟩
  rw [opcodeOfBytes_toNat, hpc]
  exact congrArg₂ (fun hi lo : Byte => hi.toNat * 256 + lo.toNat) h0 h1

end Sys2Proof.Machine
end
